-- ==== Sys2Proof/Word.lean ====
section
/-! DEFINITION. The value types of the block (00_scope.md R12): unsigned words of fixed width. -/

namespace Sys2Proof

/-- A byte, the spec's `u8` (R12). -/
abbrev Byte := BitVec 8

/-- A state word, the spec's `u32` (R10 WORD, R12). `+` on it is `+32` and `^^^` is `^` (R13). -/
abbrev Word := BitVec 32

/-- The spec's `u64` (R12), the type of NONCE64, BLOCK64, OFFSET64, LEN and OUT_CAP (R74). -/
abbrev U64 := BitVec 64

end Sys2Proof
end

