-- ==== Sys2Proof/Syntax.lean ====
section
/-! DEFINITION. The six commands (30_encoding.md R72, R74), and a command as it arrives at the port: a command word and operand
fields (R70). -/

namespace Sys2Proof

/-- The six commands with their operands: one constructor per row of spec/opcode_table.json (R72, R74). -/
inductive Instr where
  /-- INIT, R120. KEY is a byte sequence of any length: INIT itself checks that it is 32 (R74, C5). -/
  | init (key : List Byte)
  /-- SEEK_NONCE, R136. The type admits 16 bytes and no other number (R74, D4, N6). -/
  | seekNonce (nonce16 : Vector Byte 16)
  /-- SEEK_BLOCK, R137. -/
  | seekBlock (nonce64 block64 : U64)
  /-- SEEK_OFFSET, R138. -/
  | seekOffset (nonce64 offset64 : U64)
  /-- UPDATE, R162 to R164: LEN, IN and OUT_CAP. -/
  | update (len : U64) (input : List Byte) (outCap : U64)
  /-- WIPE, R190. It has no operand. -/
  | wipe
deriving DecidableEq, Repr

/-- The OP field's six assigned values by name (R72). -/
inductive Op where
  | init | seekNonce | seekBlock | seekOffset | update | wipe
deriving DecidableEq, Repr

/-- The operand fields of the command port, each under the spec's name (R74). A command carries the fields that its OP selects; a
field that it does not carry stands here as no byte or as zero (notes/assumptions/3.md). -/
structure Fields where
  KEY      : List Byte
  NONCE16  : Vector Byte 16
  NONCE64  : U64
  BLOCK64  : U64
  OFFSET64 : U64
  LEN      : U64
  IN       : List Byte
  OUT_CAP  : U64
deriving DecidableEq, Repr

/-- No operand carried. -/
def Fields.none : Fields :=
  { KEY := [], NONCE16 := Vector.replicate 16 0, NONCE64 := 0, BLOCK64 := 0, OFFSET64 := 0, LEN := 0, IN := [], OUT_CAP := 0 }

/-- One transaction on the command port: the 32-bit command word CMD and its operand fields (R70, R71). -/
structure Transaction where
  CMD    : Word
  fields : Fields
deriving DecidableEq, Repr

end Sys2Proof
end

