-- ==== Sys2Proof/WellFormed.lean ====
section
/-! DEFINITION. What 30_encoding.md R74 admits as operands beyond what the types of Sys2Proof/Syntax.lean already shut out. -/

namespace Sys2Proof

/-- The one operand bound of R74 that no type carries: KEY is "a byte sequence, any length 0..2^64−1". NONCE16 has 16 bytes and the
numbers have 64 bits by type; R74 bounds the length of IN by nothing but UPDATE's own check. -/
def Instr.wellFormed : Instr → Bool
  | .init key         => decide (key.length < 2 ^ 64)
  | .seekNonce _      => true
  | .seekBlock _ _    => true
  | .seekOffset _ _   => true
  | .update _ _ _     => true
  | .wipe             => true

/-- The same bound on a transaction's KEY field. -/
def Transaction.wellFormed (t : Transaction) : Bool :=
  decide (t.fields.KEY.length < 2 ^ 64)

end Sys2Proof
end

