-- ==== Sys2Proof/Decode.lean ====
section
/-! DEFINITION. Decoding a transaction (30_encoding.md R71 to R74, R80, R81) and, after it, encoding. -/

namespace Sys2Proof

/-- OP, bits 3:0 of the command word (R71). -/
def opField (cmd : Word) : BitVec 4 := cmd.extractLsb' 0 4

/-- RSVD, bits 31:4 of the command word (R71). -/
def rsvdField (cmd : Word) : BitVec 28 := cmd.extractLsb' 4 28

/-- R72's table of OP values: 0x0 and 0x7 to 0xF are reserved. -/
def opOfField (v : BitVec 4) : Option Op :=
  match v.toNat with
  | 1 => some .init
  | 2 => some .seekNonce
  | 3 => some .seekBlock
  | 4 => some .seekOffset
  | 5 => some .update
  | 6 => some .wipe
  | _ => none

/-- R73's decode, total over all 2^32 command words; `none` is the spec's ILLEGAL. -/
def decodeOp (cmd : Word) : Option Op :=
  if rsvdField cmd = 0 then opOfField (opField cmd) else none

/-- The command that OP names, with the operand fields of its row of R74 and no others. -/
def selectOperands (f : Fields) : Op → Instr
  | .init       => .init f.KEY
  | .seekNonce  => .seekNonce f.NONCE16
  | .seekBlock  => .seekBlock f.NONCE64 f.BLOCK64
  | .seekOffset => .seekOffset f.NONCE64 f.OFFSET64
  | .update     => .update f.LEN f.IN f.OUT_CAP
  | .wipe       => .wipe

/-- Why a transaction is no command. There is one reason: its command word is one of R80's. -/
inductive DecodeError where
  /-- RSVD ≠ 0, or OP is 0x0 or 0x7 to 0xF (R80, R203). The operands are not examined. -/
  | illegalCommand
deriving DecidableEq, Repr

/-- What a transaction decodes to: a command, or ILLEGAL by name. -/
inductive Decoded where
  | command (i : Instr)
  | rejected (e : DecodeError)
deriving DecidableEq, Repr

/-- The decoder of the port: OP picks the command (R73) and the command picks its operand fields (R70, R74). -/
def decode (t : Transaction) : Decoded :=
  match decodeOp t.CMD with
  | some op => .command (selectOperands t.fields op)
  | none    => .rejected .illegalCommand

/-- The operand fields when a table word is given by its bits alone: every operand word is zero (notes/assumptions/4.md). KEY is
the 32 zero bytes that its row asks for; IN is empty, as LEN = 0 says. -/
def Fields.zeros : Fields := { Fields.none with KEY := List.replicate 32 0 }

/-- The instruction that `decode` reads from a command word of `nbits` bits numbered as spec/opcode_table.json numbers them, with
every operand word zero. A command word has 32 bits and no other length (R71, R81), so a wider number is no command word. -/
def decodeTableWord (nbits w : Nat) : Option Instr :=
  let v := w % 2 ^ nbits
  if v < 2 ^ 32 then
    match decode { CMD := BitVec.ofNat 32 v, fields := Fields.zeros } with
    | .command i  => some i
    | .rejected _ => none
  else none

/-! ### Encoding -/

/-- The OP value of each command (R72). -/
def opCode : Op → BitVec 4
  | .init       => 0x1
  | .seekNonce  => 0x2
  | .seekBlock  => 0x3
  | .seekOffset => 0x4
  | .update     => 0x5
  | .wipe       => 0x6

/-- "Each legal command has exactly one legal word, equal to zext_32(OP)" (R73). -/
def commandWord (op : Op) : Word := (opCode op).setWidth 32

/-- The command that an instruction is. -/
def Instr.op : Instr → Op
  | .init _         => .init
  | .seekNonce _    => .seekNonce
  | .seekBlock _ _  => .seekBlock
  | .seekOffset _ _ => .seekOffset
  | .update _ _ _   => .update
  | .wipe           => .wipe

/-- The operand fields that an instruction carries: those of its own row of R74 and no others. -/
def Instr.fields : Instr → Fields
  | .init key                => { Fields.none with KEY := key }
  | .seekNonce nonce         => { Fields.none with NONCE16 := nonce }
  | .seekBlock nonce blk     => { Fields.none with NONCE64 := nonce, BLOCK64 := blk }
  | .seekOffset nonce offset => { Fields.none with NONCE64 := nonce, OFFSET64 := offset }
  | .update len input outCap => { Fields.none with LEN := len, IN := input, OUT_CAP := outCap }
  | .wipe                    => Fields.none

/-- The transaction of an instruction: its one legal word and its own operand fields (R73, R74). -/
def encode (i : Instr) : Transaction :=
  { CMD := commandWord i.op, fields := i.fields }

end Sys2Proof
end

