-- ==== Sys2Proof/Config.lean ====
section
/-! DEFINITION. What is fixed when the block is built, and the two parameters that the spec leaves OPEN (92_eei_decisions.md D19,
D21, D28; 93_implementation_defined.md I2, I5, I6). -/

namespace Sys2Proof.Config

/-- NROUNDS, a build-time constant that no command changes; 20 for this hardware (R10, R11, D19). -/
def nrounds : Nat := 20

/-- FREE VALUE (notes/assumptions/1.md). `host_schedule`: the `n`-th number of the sequence that decides which host's command is
accepted `n`-th when several hosts have one waiting (R61, R238, D21, I5). No body, so no proof can know an entry of it. DESIGN CHOICE:
one sequence serves every instance. The spec leaves open whether each instance has a sequence of its own (R214, D21), and here two
instances that have accepted equally many commands and have the same hosts waiting choose the same host. -/
opaque hostSchedule : Nat → Nat

/-- FREE VALUE (notes/assumptions/2.md). `latency(cmd)`: the finite time that a command takes, where `cmd` is the whole transaction,
operand fields included (R18, R241, D28, I6). The spec names it and says that no rule depends on it, so nothing in the model reads
it. DESIGN CHOICE: it is a function of the transaction and of nothing else, so a transaction takes equally long on every context. -/
opaque latency : Transaction → Nat

end Sys2Proof.Config
end

