-- ==== Sys2Proof/Machine/State.lean ====
section
/-! DEFINITION. The state of the block (10_state.md), its command port and its value after reset (R39). Names are the spec's. -/

namespace Sys2Proof.Machine

/-- MODE, the counter layout that the increment uses (R29). -/
inductive Mode where
  /-- MODE = 0: words 12 and 13 are a 64-bit block counter, words 14 and 15 a nonce. -/
  | block
  /-- MODE = 1: words 12 to 15 are one 128-bit value. -/
  | nonce128
deriving DecidableEq, Repr

/-- STATUS, the result code of the most recent command (R31, R200). -/
inductive Status where
  | ok
  | invalidArgument
  | notKeyed
  | illegalCommand
deriving DecidableEq, Repr

/-- CUR, an index in [0, 64] (R27). The encodings 65 to 127 of the 7-bit register are shut out by the type, as
93_implementation_defined.md I4 asks. -/
abbrev Cursor := Fin 65

/-- The sixteen state words S[0..15] (R22). -/
abbrev Words := Vector Word 16

/-- The 64-byte keystream block KS[0..63] (R26). -/
abbrev Block := Vector Byte 64

/-- The cipher context: "all of the block's architectural state", its six components (R20). -/
structure Context where
  S      : Words
  KS     : Block
  CUR    : Cursor
  MODE   : Mode
  KEYED  : Bool
  STATUS : Status
deriving DecidableEq, Repr

/-- What the block answers to a command: STATUS and the output bytes OUT (R70, R87). -/
structure Response where
  status : Status
  out    : List Byte
deriving DecidableEq, Repr

/-- A response as a host received it. -/
structure Delivery where
  host     : Nat
  response : Response
deriving DecidableEq, Repr

/-- A reset that has reached the block and is not yet taken: between two commands, or while a command is in progress, which is
then abandoned (R230). -/
inductive ResetArrival where
  | betweenCommands
  | duringCommand
deriving DecidableEq, Repr

/-- Why the machine would stop with a fault. NO CONSTRUCTOR: the block has no trap, and an error is a rejected command after which
it goes on (60_exceptions.md R204, R208); no step of this model faults (safe). -/
inductive Fault where
deriving DecidableEq, Repr

/-- Why an instruction has no meaning here. -/
inductive Refusal where
  /-- Raised by an arm of `exec` whose instruction has no meaning yet; every arm has one, so no step raises it (safe). -/
  | notModelled (mnemonic : String)
deriving DecidableEq, Repr

/-- The block and what stands at its command port. `ctx` is the architectural state (R20); the other fields are the port of R70 as
plain data and the model's own. -/
structure State where
  /-- The cipher context, R20. -/
  ctx       : Context
  /-- The response on the port: the answer to the most recent command, none before the first (R70, R87). -/
  response  : Option Response
  /-- For each host, numbered from 0, the commands it has issued that the block has not yet accepted, the first to go first
  (R60, R61). -/
  queues    : List (List Transaction)
  /-- How many commands the block has accepted: the index into the free `Config.hostSchedule` (R61, R238). -/
  turn      : Nat
  /-- A reset that has arrived and is not yet taken (R230). -/
  resetIn   : Option ResetArrival
  /-- Every response so far, each with the host it went to, the first given first: all that hosts see (R33). -/
  delivered : List Delivery
deriving DecidableEq, Repr

/-- The context after reset, the same that WIPE leaves (R39, R191, R230). -/
def Context.reset : Context :=
  { S := Vector.replicate 16 0, KS := Vector.replicate 64 0, CUR := 0, MODE := .block, KEYED := false, STATUS := .ok }

/-- The machine right after reset: the context of R39, an idle port with no command issued, nothing answered yet
(notes/assumptions/5.md). -/
def State.reset : State :=
  { ctx := Context.reset, response := none, queues := [], turn := 0, resetIn := none, delivered := [] }

end Sys2Proof.Machine
end

