-- ==== Sys2Proof/Machine/Bytes.lean ====
section
/-! DEFINITION. The arithmetic and byte-order primitives of 00_scope.md R13 and R14. -/

namespace Sys2Proof.Machine

/-- `rotl32(x, n)` = ((x << n) | (x >> (32 − n))) mod 2^32 for 0 < n < 32 (R13). -/
def rotl32 (x : Word) (n : Nat) : Word := (x <<< n) ||| (x >>> (32 - n))

/-- `LE32(b0, b1, b2, b3)` = b0 + 2^8·b1 + 2^16·b2 + 2^24·b3 (R14). -/
def le32 (b0 b1 b2 b3 : Byte) : Word :=
  BitVec.ofNat 32 (b0.toNat + 2 ^ 8 * b1.toNat + 2 ^ 16 * b2.toNat + 2 ^ 24 * b3.toNat)

/-- Byte `k` of a byte sequence. Every use is inside the sequence; the 0 outside it only makes the function total. -/
def byteAt (b : List Byte) (k : Nat) : Byte := b.getD k 0

/-- `LE32(B, i)` (R14). -/
def le32At (b : List Byte) (i : Nat) : Word :=
  le32 (byteAt b i) (byteAt b (i + 1)) (byteAt b (i + 2)) (byteAt b (i + 3))

/-- Byte `j` of `BYTES32(w)`, that is w[8j+7 : 8j] (R14). -/
def byteOfWord (w : Word) (j : Nat) : Byte := w.extractLsb' (8 * j) 8

/-- The low word v[31:0] of a u64 (R77). -/
def lowWord (v : U64) : Word := v.extractLsb' 0 32

/-- The high word v[63:32] of a u64 (R77). -/
def highWord (v : U64) : Word := v.extractLsb' 32 32

/-- Bytes of one sequence exclusive-ored with those of another, position by position, as far as the shorter one goes. -/
def xorBytes (a b : List Byte) : List Byte := List.zipWith (fun x y => x ^^^ y) a b

/-- A cursor value. Every use has `n ≤ 64` (R27, R28), where the remainder is `n` itself. -/
def cursorOf (n : Nat) : Cursor := Fin.ofNat 65 n

end Sys2Proof.Machine
end

