-- ==== Sys2Proof/Machine/Counter.lean ====
section
/-! DEFINITION. The counter region S[12..15] (42_counter_and_seek.md R130 to R135): its value, and the sub-block
`chacha20_counter_increment`. -/

namespace Sys2Proof.Machine

/-- W(MODE): how many values the block counter takes (R131). -/
def wrapOf : Mode → Nat
  | .block    => 2 ^ 64
  | .nonce128 => 2 ^ 128

/-- ctr(S, MODE), the block counter (R131, R51). -/
def ctr (S : Words) : Mode → Nat
  | .block    => S[12].toNat + 2 ^ 32 * S[13].toNat
  | .nonce128 => S[12].toNat + 2 ^ 32 * S[13].toNat + 2 ^ 64 * S[14].toNat + 2 ^ 96 * S[15].toNat

/-- with_ctr(S, MODE, c) (R131). In MODE = 0 it leaves S[14] and S[15] unchanged. -/
def withCtr (S : Words) (m : Mode) (c : Nat) : Words :=
  match m with
  | .block    => (S.set 12 (BitVec.ofNat 32 c)).set 13 (BitVec.ofNat 32 (c / 2 ^ 32))
  | .nonce128 =>
    (((S.set 12 (BitVec.ofNat 32 c)).set 13 (BitVec.ofNat 32 (c / 2 ^ 32))).set 14
      (BitVec.ofNat 32 (c / 2 ^ 64))).set 15 (BitVec.ofNat 32 (c / 2 ^ 96))

/-- The four words of the counter region written at once, word 12 first (R25, R136 to R138). -/
def setCounterRegion (S : Words) (w12 w13 w14 w15 : Word) : Words :=
  (((S.set 12 w12).set 13 w13).set 14 w14).set 15 w15

/-- CTR_INC when MODE = 0: the carry goes from word 12 to word 13 and stops there (R132, C1). -/
def ctrIncBlock (S : Words) : Words :=
  let S := S.set 12 (S[12] + 1)
  if S[12] = 0 then S.set 13 (S[13] + 1) else S

/-- CTR_INC when MODE = 1: the carry goes through all four words (R133, C3). -/
def ctrIncNonce128 (S : Words) : Words :=
  let S := S.set 12 (S[12] + 1)
  if S[12] = 0 then
    let S := S.set 13 (S[13] + 1)
    if S[13] = 0 then
      let S := S.set 14 (S[14] + 1)
      if S[14] = 0 then S.set 15 (S[15] + 1) else S
    else S
  else S

/-- CTR_INC, in the width that MODE says (R130, R132, R133). -/
def ctrInc (m : Mode) (S : Words) : Words :=
  match m with
  | .block    => ctrIncBlock S
  | .nonce128 => ctrIncNonce128 S

end Sys2Proof.Machine
end

