-- ==== Sys2Proof/Machine/Operands.lean ====
section
/-! DEFINITION. How operand fields become words (30_encoding.md R75 to R79): every operand form of the six commands. -/

namespace Sys2Proof.Machine

/-- Key word `i` of an INIT's KEY, `LE32(KEY, 4i)` (R75). -/
def keyWord (key : List Byte) (i : Nat) : Word := le32At key (4 * i)

/-- Word `i` of a SEEK_NONCE's NONCE16, `LE32(NONCE16, 4i)` (R76). -/
def nonceWord (nonce16 : Vector Byte 16) (i : Nat) : Word := le32At nonce16.toList (4 * i)

/-- The counter region that a NONCE16 names (R76). -/
def writeNonce16 (S : Words) (nonce16 : Vector Byte 16) : Words :=
  setCounterRegion S (nonceWord nonce16 0) (nonceWord nonce16 1) (nonceWord nonce16 2) (nonceWord nonce16 3)

/-- The counter region that a block counter and a NONCE64 name: counter low and high, then nonce low and high (R77). -/
def writeBlockNonce (S : Words) (nonce64 block64 : U64) : Words :=
  setCounterRegion S (lowWord block64) (highWord block64) (lowWord nonce64) (highWord nonce64)

/-- `blk = OFFSET64 div 64 = OFFSET64[63:6]` (R78). -/
def offsetBlock (offset64 : U64) : U64 := offset64 / 64

/-- `sub = OFFSET64 mod 64 = OFFSET64[5:0]` (R78). -/
def offsetSub (offset64 : U64) : Nat := offset64.toNat % 64

end Sys2Proof.Machine
end

