-- ==== Sys2Proof/Machine/Flags.lean ====
section
/-! DEFINITION. STATUS: its codes (60_exceptions.md R200) and the checks that decide it, in the order of R206. The block has no
other flag (R38). -/

namespace Sys2Proof.Machine

/-- The 2-bit code of a status (R200). -/
def statusCode : Status → BitVec 2
  | .ok              => 0
  | .invalidArgument => 1
  | .notKeyed        => 2
  | .illegalCommand  => 3

/-- MODE as the bit that R29 and R32 give it. -/
def modeBit : Mode → BitVec 1
  | .block    => 0
  | .nonce128 => 1

/-- What a command's checks decide, before its first write (R204, R206). -/
inductive Verdict where
  /-- Every check passed: the command does its work. -/
  | proceed
  /-- The zero-length UPDATE: complete with OK and change nothing else (R163 check 2). -/
  | noOp
  /-- Reject with this code. -/
  | reject (code : Status)
deriving DecidableEq, Repr

/-- INIT's one check, |KEY| = 32 (R121). It does not look at KEYED (R124). -/
def initCheck (keyLength : Nat) : Verdict :=
  if keyLength = 32 then .proceed else .reject .invalidArgument

/-- The one check of the three seeks (R136 to R138, R202). -/
def seekCheck (keyed : Bool) : Verdict :=
  if keyed then .proceed else .reject .notKeyed

/-- UPDATE's three checks in order (R163, R206). -/
def updateCheck (keyed : Bool) (len : U64) (inLength : Nat) (outCap : U64) : Verdict :=
  if keyed = false then .reject .notKeyed
  else if len = 0 then .noOp
  else if inLength = len.toNat ∧ outCap = len then .proceed
  else .reject .invalidArgument

end Sys2Proof.Machine
end

