-- ==== Sys2Proof/Machine/Permutation.lean ====
section
/-! DEFINITION. The permutation core (40_permutation_core.md): the sub-blocks `chacha20_quarter_round` and
`chacha20_permutation_20round`, and the block function. All are functions of their inputs and write no state (R102, R105, R108). -/

namespace Sys2Proof.Machine

/-- QR, each line on the values that the line before it wrote (R101). -/
def qr (a b c d : Word) : Word × Word × Word × Word :=
  let a := a + b
  let d := rotl32 (d ^^^ a) 16
  let c := c + d
  let b := rotl32 (b ^^^ c) 12
  let a := a + b
  let d := rotl32 (d ^^^ a) 8
  let c := c + d
  let b := rotl32 (b ^^^ c) 7
  (a, b, c, d)

/-- Four word positions, the spec's (i, j, k, l). -/
abbrev Quad := Fin 16 × Fin 16 × Fin 16 × Fin 16

/-- QR_AT: QR at four positions of a working array, its results written back to them (R103). -/
def qrAt (x : Words) (q : Quad) : Words :=
  let r := qr x[q.1] x[q.2.1] x[q.2.2.1] x[q.2.2.2]
  (((x.set q.1 r.1).set q.2.1 r.2.1).set q.2.2.1 r.2.2.1).set q.2.2.2 r.2.2.2

/-- The four columns (R103). -/
def columns : List Quad := [(0, 4, 8, 12), (1, 5, 9, 13), (2, 6, 10, 14), (3, 7, 11, 15)]

/-- The four diagonals (R103). -/
def diagonals : List Quad := [(0, 5, 10, 15), (1, 6, 11, 12), (2, 7, 8, 13), (3, 4, 9, 14)]

/-- A column round (R103, R104). -/
def columnRound (x : Words) : Words := columns.foldl qrAt x

/-- A diagonal round (R103, R104). -/
def diagonalRound (x : Words) : Words := diagonals.foldl qrAt x

/-- DOUBLE_ROUND: a column round, then a diagonal round (R104). -/
def doubleRound (x : Words) : Words := diagonalRound (columnRound x)

/-- `n` double rounds one after another. -/
def doubleRounds : Nat → Words → Words
  | 0,     x => x
  | n + 1, x => doubleRounds n (doubleRound x)

/-- PERM: NROUNDS / 2 double rounds (R105, R11). -/
def perm (x : Words) : Words := doubleRounds (Config.nrounds / 2) x

/-- The feed-forward: each permuted word plus the original one (R106, R107). -/
def feedForward (s : Words) : Words := Vector.zipWith (fun y o => y + o) (perm s) s

/-- Sixteen words as 64 bytes, each word little-endian, word 0 first (R50, R106). -/
def serialize (z : Words) : Block :=
  Vector.ofFn fun k : Fin 64 => byteOfWord (z[k.val / 4]'(by omega)) (k.val % 4)

/-- BLOCK: permute a copy, add the original words, serialise (R106). -/
def blockFn (s : Words) : Block := serialize (feedForward s)

end Sys2Proof.Machine
end

