-- ==== Sys2Proof/Machine/Ops.lean ====
section
/-! DEFINITION. The operations that the commands share: the keystream generator GEN, ending a command with its response, rejecting
one (this block's whole exception mechanism, 60_exceptions.md R204, R208; there is no return from it, R209), taking a reset, and
the command port's queues. -/

namespace Sys2Proof.Machine

/-- GEN, the sub-block `chacha20_keystream_generator`: KS takes the block of the current state, and then the counter is
incremented (R161). Nothing else is written. -/
def Context.gen (c : Context) : Context :=
  { c with KS := blockFn c.S, S := ctrInc c.MODE c.S }

/-- `CUR <- n` (R15, R28). -/
def Context.setCursor (c : Context) (n : Nat) : Context := { c with CUR := cursorOf n }

/-- End a command: STATUS takes the code, and the response is that code with the output bytes (R31, R87). -/
def State.respond (s : State) (code : Status) (out : List Byte) : State :=
  { s with ctx := { s.ctx with STATUS := code }, response := some { status := code, out := out } }

/-- `reject(code)`: STATUS takes the code, OUT is empty, and no other state changes (R15, R204, R208). -/
def State.reject (s : State) (code : Status) : State := s.respond code []

/-- Complete a command with STATUS = OK on the context it leaves (R31, R87). -/
def State.complete (s : State) (c : Context) (out : List Byte) : State :=
  ({ s with ctx := c }).respond .ok out

/-- OUT of the response on the port; no byte if there is no response yet (R87). -/
def State.out (s : State) : List Byte :=
  match s.response with
  | none   => []
  | some r => r.out

/-- Act on what a command's checks decide: do the work, do nothing, or reject (R204, R206). `work` gives the context that the
command leaves and the bytes it puts out. -/
def State.conclude (s : State) (v : Verdict) (work : Context → Context × List Byte) :
    Host.Outcome State Fault Refusal :=
  match v with
  | .proceed     => .next (s.complete (work s.ctx).1 (work s.ctx).2)
  | .noOp        => .next (s.complete s.ctx [])
  | .reject code => .next (s.reject code)

/-! ### The command port -/

/-- The hosts, from number `h` on, that have a command waiting. -/
def readyFrom (h : Nat) : List (List Transaction) → List Nat
  | []            => []
  | [] :: qs      => readyFrom (h + 1) qs
  | (_ :: _) :: qs => h :: readyFrom (h + 1) qs

/-- Whose command goes next: the one ready host, or among several the one that the free schedule names (R61, R238, D21). DESIGN
CHOICE (notes/assumptions/1.md): the schedule is the same for every instance, indexed by how many commands this one has accepted. -/
def chooseHost (turn : Nat) : List Nat → Option Nat
  | []           => none
  | [h]          => some h
  | h :: h' :: hs => (h :: h' :: hs)[Config.hostSchedule turn % (h :: h' :: hs).length]?

/-- The host whose command the block accepts next, if any host has one waiting. -/
def State.nextHost (s : State) : Option Nat := chooseHost s.turn (readyFrom 0 s.queues)

/-- The commands that a host has issued and the block has not accepted. -/
def State.queueOf (s : State) (h : Nat) : List Transaction := s.queues.getD h []

/-- The transaction that the block accepts next, with the host that issued it (R60, R61). -/
def State.nextCommand (s : State) : Option (Nat × Transaction) :=
  match s.nextHost with
  | none   => none
  | some h =>
    match s.queueOf h with
    | []     => none
    | t :: _ => some (h, t)

/-- Accept host `h`'s first waiting command: it leaves the queue, and the schedule moves on by one. -/
def State.accept (s : State) (h : Nat) : State :=
  { s with queues := s.queues.set h (s.queueOf h).tail, turn := s.turn + 1 }

/-- Give the response on the port to host `h` (R70, R87). -/
def State.deliver (s : State) (h : Nat) : State :=
  match s.response with
  | none   => s
  | some r => { s with delivered := s.delivered ++ [{ host := h, response := r }] }

/-- The step's end: a next state's response goes to the host that issued the command. -/
def deliverTo (h : Nat) : Host.Outcome State Fault Refusal → Host.Outcome State Fault Refusal
  | .next s    => .next (s.deliver h)
  | .fault r   => .fault r
  | .refused r => .refused r

/-- Take a reset: every part of the context goes to its reset value, and a command in progress is abandoned, with no response
(R230). DESIGN CHOICE (notes/assumptions/8.md): a reset does not restart the free host_schedule, and an abandoned command uses up the
entry of it by which it was chosen, as a performed one does; commands that were not in progress stay in their queues. -/
def State.takeReset (s : State) (a : ResetArrival) : State :=
  let s := { s with ctx := Context.reset, response := none, resetIn := none }
  match a with
  | .betweenCommands => s
  | .duringCommand   =>
    match s.nextCommand with
    | none        => s
    | some (h, _) => s.accept h

/-- Issue a command ahead of all others of the host whose command would go next (host 0 if none waits). -/
def State.issueFirst (s : State) (t : Transaction) : State :=
  match s.nextHost, s.queues with
  | some h, qs      => { s with queues := qs.set h (t :: s.queueOf h) }
  | none,   []      => { s with queues := [[t]] }
  | none,   q :: qs => { s with queues := (t :: q) :: qs }

end Sys2Proof.Machine
end

