-- ==== Sys2Proof/Machine/Init.lean ====
section
/-! DEFINITION. INIT (41_state_init.md), the sub-block `chacha20_state_init`. -/

namespace Sys2Proof.Machine

/-- The four constant words, "expand 32-byte k" read with LE32 (R122). -/
def constWord : Fin 4 → Word
  | 0 => 0x61707865
  | 1 => 0x3320646e
  | 2 => 0x79622d32
  | 3 => 0x6b206574

/-- The sixteen words that INIT writes: constants, key words, and a zero counter region (R120). -/
def initWords (key : List Byte) : Words :=
  #v[constWord 0, constWord 1, constWord 2, constWord 3,
     keyWord key 0, keyWord key 1, keyWord key 2, keyWord key 3,
     keyWord key 4, keyWord key 5, keyWord key 6, keyWord key 7,
     0, 0, 0, 0]

/-- The context that a successful INIT leaves (R120, R123); nothing of the old one survives but STATUS, which `conclude` then
writes (R124). -/
def initContext (key : List Byte) (c : Context) : Context :=
  { S := initWords key, KS := Vector.replicate 64 0, CUR := 64, MODE := .block, KEYED := true, STATUS := c.STATUS }

/-- INIT (R120, R121). -/
def execInit (key : List Byte) (s : State) : Host.Outcome State Fault Refusal :=
  s.conclude (initCheck key.length) fun c => (initContext key c, [])

end Sys2Proof.Machine
end

