-- ==== Sys2Proof/Machine/Seek.lean ====
section
/-! DEFINITION. SEEK_NONCE, SEEK_BLOCK and SEEK_OFFSET (42_counter_and_seek.md). No seek writes S[0..11] or KEYED, and none puts out
a byte (R140). -/

namespace Sys2Proof.Machine

/-- SEEK_NONCE's work (R136). KS is left as it is. -/
def seekNonceContext (nonce16 : Vector Byte 16) (c : Context) : Context :=
  { c with S := writeNonce16 c.S nonce16, MODE := .nonce128, CUR := 64 }

/-- SEEK_BLOCK's work (R137). KS is left as it is. -/
def seekBlockContext (nonce64 block64 : U64) (c : Context) : Context :=
  { c with S := writeBlockNonce c.S nonce64 block64, MODE := .block, CUR := 64 }

/-- SEEK_OFFSET's work: the effect of SEEK_BLOCK at blk and, when sub > 0, one GEN with CUR at sub (R138). -/
def seekOffsetContext (nonce64 offset64 : U64) (c : Context) : Context :=
  let c := seekBlockContext nonce64 (offsetBlock offset64) c
  if 0 < offsetSub offset64 then c.gen.setCursor (offsetSub offset64) else c

/-- SEEK_NONCE (R136). -/
def execSeekNonce (nonce16 : Vector Byte 16) (s : State) : Host.Outcome State Fault Refusal :=
  s.conclude (seekCheck s.ctx.KEYED) fun c => (seekNonceContext nonce16 c, [])

/-- SEEK_BLOCK (R137). -/
def execSeekBlock (nonce64 block64 : U64) (s : State) : Host.Outcome State Fault Refusal :=
  s.conclude (seekCheck s.ctx.KEYED) fun c => (seekBlockContext nonce64 block64 c, [])

/-- SEEK_OFFSET (R138). -/
def execSeekOffset (nonce64 offset64 : U64) (s : State) : Host.Outcome State Fault Refusal :=
  s.conclude (seekCheck s.ctx.KEYED) fun c => (seekOffsetContext nonce64 offset64 c, [])

end Sys2Proof.Machine
end

