-- ==== Sys2Proof/Machine/Update.lean ====
section
/-! DEFINITION. UPDATE (43_keystream_update.md), the sub-block `chacha20_xor_update`: its three steps over the input that is left. -/

namespace Sys2Proof.Machine

/-- Where an UPDATE stands: the context, the input bytes still to transform (IN from index p on, so that `rest.length` is the
pseudocode's rem) and the bytes emitted so far (R164). -/
structure Progress where
  ctx  : Context
  rest : List Byte
  out  : List Byte
deriving DecidableEq, Repr

/-- Step 1's `n`, how many bytes of the buffered block are used: min(rem, 64 − CUR) (R164). -/
def bufferedCount (u : Progress) : Nat := min u.rest.length (64 - u.ctx.CUR.val)

/-- Step 1: use the rest of the buffered block (R164). -/
def useBuffered (u : Progress) : Progress :=
  if u.ctx.CUR.val < 64 then
    { ctx  := u.ctx.setCursor (u.ctx.CUR.val + bufferedCount u)
      rest := u.rest.drop (bufferedCount u)
      out  := u.out ++ xorBytes (u.rest.take (bufferedCount u)) (u.ctx.KS.toList.drop u.ctx.CUR.val) }
  else u

/-- The body of step 2's loop: GEN, and 64 bytes exclusive-ored with the whole of KS. CUR is left as it is (R164). -/
def wholeBlock (u : Progress) : Progress :=
  { ctx  := u.ctx.gen
    rest := u.rest.drop 64
    out  := u.out ++ xorBytes (u.rest.take 64) u.ctx.gen.KS.toList }

/-- Step 2's loop, `while rem >= 64`, at most `fuel` times round (R164). -/
def wholeBlocks : Nat → Progress → Progress
  | 0,        u => u
  | fuel + 1, u => if 64 ≤ u.rest.length then wholeBlocks fuel (wholeBlock u) else u

/-- Step 2: rem div 64 is how many times the loop goes round, so this fuel is enough (R164). -/
def useWholeBlocks (u : Progress) : Progress := wholeBlocks (u.rest.length / 64) u

/-- Step 3: a final partial block, with CUR at its length (R164). -/
def usePartialBlock (u : Progress) : Progress :=
  if 0 < u.rest.length then
    { ctx  := u.ctx.gen.setCursor u.rest.length
      rest := []
      out  := u.out ++ xorBytes u.rest u.ctx.gen.KS.toList }
  else u

/-- The three steps one after another on all of IN (R164). -/
def updateSteps (c : Context) (input : List Byte) : Progress :=
  usePartialBlock (useWholeBlocks (useBuffered { ctx := c, rest := input, out := [] }))

/-- UPDATE (R162 to R164). -/
def execUpdate (len : U64) (input : List Byte) (outCap : U64) (s : State) : Host.Outcome State Fault Refusal :=
  s.conclude (updateCheck s.ctx.KEYED len input.length outCap)
    fun c => ((updateSteps c input).ctx, (updateSteps c input).out)

end Sys2Proof.Machine
end

