-- ==== Sys2Proof/Machine/Wipe.lean ====
section
/-! DEFINITION. WIPE (44_teardown.md). -/

namespace Sys2Proof.Machine

/-- The context that WIPE leaves: every field zero (R190, R191). -/
def wipedContext : Context :=
  { S := Vector.replicate 16 0, KS := Vector.replicate 64 0, CUR := 0, MODE := .block, KEYED := false, STATUS := .ok }

/-- WIPE, accepted in every state (R190, R192). -/
def execWipe (s : State) : Host.Outcome State Fault Refusal :=
  s.conclude .proceed fun _ => (wipedContext, [])

end Sys2Proof.Machine
end

