-- ==== Sys2Proof/Machine/Dispatch.lean ====
section
/-! DEFINITION. The meaning of each command of the opcode table (30_encoding.md R72). -/

namespace Sys2Proof.Machine

def exec (i : Instr) (s : State) : Host.Outcome State Fault Refusal :=
  match i with
  | .init key => Sys2Proof.Machine.execInit key s
  | .seekNonce nonce16 => Sys2Proof.Machine.execSeekNonce nonce16 s
  | .seekBlock nonce64 block64 => Sys2Proof.Machine.execSeekBlock nonce64 block64 s
  | .seekOffset nonce64 offset64 => Sys2Proof.Machine.execSeekOffset nonce64 offset64 s
  | .update len input outCap => Sys2Proof.Machine.execUpdate len input outCap s
  | .wipe => Sys2Proof.Machine.execWipe s

end Sys2Proof.Machine
end

