-- ==== Sys2Proof/Machine/Perform.lean ====
section
/-! DEFINITION. Performing one accepted transaction (30_encoding.md R70, R73, R80). -/

namespace Sys2Proof.Machine

/-- A transaction whose word decodes runs its command; one whose word does not is rejected with ILLEGAL_COMMAND, whatever operands
come with it (R73, R80, R203). -/
def perform (t : Transaction) (s : State) : Host.Outcome State Fault Refusal :=
  match decode t with
  | .command i  => exec i s
  | .rejected _ => .next (s.reject .illegalCommand)

end Sys2Proof.Machine
end

