-- ==== Sys2Proof/Machine/Step.lean ====
section
/-! DEFINITION. One step of the machine: take a reset that has arrived, or accept one command, perform it and deliver its response
(R56, R60, R70, R230). -/

namespace Sys2Proof.Machine

/-- One step. With no reset and no command waiting, the block waits and nothing changes (notes/assumptions/6.md). -/
def step (s : State) : Host.Outcome State Fault Refusal :=
  match s.resetIn with
  | some a => .next (s.takeReset a)
  | none   =>
    match s.nextCommand with
    | none        => .next s
    | some (h, t) => deliverTo h (perform t (s.accept h))

/-- `s` with the transaction of a table word (`decodeTableWord`'s, every operand word zero) as the very next command, and no reset
in front of it. A number that is no 32-bit command word is issued as the illegal word 0 (R72). -/
def State.withFetchWord (s : State) (nbits w : Nat) : State :=
  let v := w % 2 ^ nbits
  let cmd : Word := if v < 2 ^ 32 then BitVec.ofNat 32 v else 0
  ({ s with resetIn := none }).issueFirst { CMD := cmd, fields := Fields.zeros }

end Sys2Proof.Machine
end

