-- ==== Sys2Proof/Machine/OneShot.lean ====
section
/-! DEFINITION. Command sequences that a host issues, no commands of the port themselves: the two pseudo-commands (30_encoding.md R86), and
a message given to UPDATE in chunks (43_keystream_update.md R171). -/

namespace Sys2Proof.Machine

/-- The one-shot forms with their operands (R86). -/
inductive OneShot where
  | cryptBlock (key : List Byte) (nonce block : U64) (input : List Byte)
  | cryptOffset (key : List Byte) (nonce offset : U64) (input : List Byte)
deriving DecidableEq, Repr

/-- The UPDATE of a one-shot form: LEN and OUT_CAP are the length of the one buffer, which a u64 must hold
(notes/assumptions/10.md). -/
def wholeUpdate (input : List Byte) : Instr :=
  .update (BitVec.ofNat 64 input.length) input (BitVec.ofNat 64 input.length)

/-- The commands of a one-shot form before its final WIPE (R86). -/
def OneShot.body : OneShot → List Instr
  | .cryptBlock key nonce block input   => [.init key, .seekBlock nonce block, wholeUpdate input]
  | .cryptOffset key nonce offset input => [.init key, .seekOffset nonce offset, wholeUpdate input]

/-- Perform commands one after another and stop after the first that is rejected (R86). -/
def runUntilRejected : List Instr → State → Host.Outcome State Fault Refusal
  | [],      s => .next s
  | i :: is, s =>
    match exec i s with
    | .next t    => if t.ctx.STATUS = .ok then runUntilRejected is t else .next t
    | .fault r   => .fault r
    | .refused r => .refused r

/-- What a one-shot form comes to: the block it leaves, and the status and bytes it returns. -/
structure OneShotResult where
  block  : State
  status : Status
  out    : List Byte
deriving DecidableEq, Repr

/-- Run a one-shot form: the body up to the first rejection, then always the WIPE. The status is the first that is not OK, or OK;
the bytes are UPDATE's OUT, or none if a command was rejected (R86, D24). -/
def OneShot.run (o : OneShot) (s : State) : Host.Outcome OneShotResult Fault Refusal :=
  match runUntilRejected o.body s with
  | .fault r   => .fault r
  | .refused r => .refused r
  | .next t    =>
    match exec .wipe t with
    | .fault r   => .fault r
    | .refused r => .refused r
    | .next w    =>
      .next { block := w
              status := t.ctx.STATUS
              out := if t.ctx.STATUS = .ok then t.out else [] }

/-- UPDATE on each chunk of a message in turn: the state it leaves, and the outputs one after another (R171). -/
def runUpdates : List (List Byte) → State → Host.Outcome (State × List Byte) Fault Refusal
  | [],      s => .next (s, [])
  | m :: ms, s =>
    match exec (wholeUpdate m) s with
    | .fault r   => .fault r
    | .refused r => .refused r
    | .next t    =>
      match runUpdates ms t with
      | .fault r     => .fault r
      | .refused r   => .refused r
      | .next (u, o) => .next (u, t.out ++ o)

end Sys2Proof.Machine
end

