-- ==== Sys2Proof/Machine/Assembler.lean ====
section
/-! DEFINITION. The assembly syntax (30_encoding.md R82 to R85): one line of text as a transaction or a pseudo-command. A host-side
tool; no step reads it. Text is a list of characters. -/

namespace Sys2Proof.Machine

/-- Why an assembler refuses a line. -/
inductive AsmError where
  /-- The line has no mnemonic, or one that R82 to R86 do not give. -/
  | unknownMnemonic
  /-- An operand is not of the form name "=" value, or its value is neither a number nor bytes (R82). -/
  | malformed
  /-- A number of more than 64 bits (R85). -/
  | numberTooWide
  /-- An operand name that the command does not have (R74, R82). -/
  | unknownOperand
  /-- An operand that is not there, or is there more than once (R82). -/
  | missingOperand
  | repeatedOperand
  /-- A number where the operand is bytes, or bytes where it is a number (R83). -/
  | wrongKind
  /-- A SEEK_NONCE whose nonce is not 16 bytes (R83). -/
  | nonceLength
deriving DecidableEq, Repr

/-- The value of an operand: a number, which is a u64, or bytes (R82). -/
inductive AsmValue where
  | number (v : U64)
  | bytes (b : List Byte)
deriving DecidableEq, Repr

/-- What one line assembles to. -/
inductive AsmLine where
  | command (t : Transaction)
  | oneShot (o : OneShot)
deriving DecidableEq, Repr

/-! ### Characters and words of the line -/

/-- A blank is a space or a tab. DESIGN CHOICE (notes/assumptions/7.md): R82's grammar does not say where blanks may stand. The model
admits them at both ends of a line, behind the mnemonic (where one at least parts it from its operands), around an operand's name and
around its value, and inside the parentheses of zero( ) and seq( ) around the number; nowhere else. -/
def isBlank (c : Char) : Bool := c = ' ' || c = '\t'

def trimLeft (cs : List Char) : List Char := cs.dropWhile isBlank

def trim (cs : List Char) : List Char := (trimLeft (trimLeft cs).reverse).reverse

/-- The parts of a text between occurrences of a character. -/
def splitAtChar (sep : Char) : List Char → List (List Char)
  | []      => [[]]
  | c :: cs =>
    if c = sep then [] :: splitAtChar sep cs
    else match splitAtChar sep cs with
      | []      => [[c]]
      | w :: ws => (c :: w) :: ws

def lower (cs : List Char) : List Char := cs.map Char.toLower

def decimalDigit (c : Char) : Option Nat :=
  if '0'.toNat ≤ c.toNat ∧ c.toNat ≤ '9'.toNat then some (c.toNat - '0'.toNat) else none

def hexDigit (c : Char) : Option Nat :=
  match decimalDigit c with
  | some d => some d
  | none   =>
    let l := c.toLower
    if 'a'.toNat ≤ l.toNat ∧ l.toNat ≤ 'f'.toNat then some (l.toNat - 'a'.toNat + 10) else none

/-- The number that digits spell in a base, `acc` being what the digits before them spell. -/
def digitsValue (digit : Char → Option Nat) (base : Nat) : Nat → List Char → Option Nat
  | acc, []      => some acc
  | acc, c :: cs =>
    match digit c with
    | some d => digitsValue digit base (base * acc + d) cs
    | none   => none

/-! ### Values -/

/-- `number`: decimal digits, or "0x" and hex digits; one of more than 64 bits is refused (R82, R85). -/
def parseNumber (cs : List Char) : Except AsmError U64 :=
  let value :=
    match cs with
    | '0' :: 'x' :: c :: ds => digitsValue hexDigit 16 0 (c :: ds)
    | c :: ds               => digitsValue decimalDigit 10 0 (c :: ds)
    | []                    => none
  match value with
  | none   => .error .malformed
  | some n => if n < 2 ^ 64 then .ok (BitVec.ofNat 64 n) else .error .numberTooWide

/-- Hex pairs up to a closing quote, byte 0 first (R82). -/
def parseHexPairs : List Char → Except AsmError (List Byte)
  | ['"']        => .ok []
  | a :: b :: cs =>
    match hexDigit a, hexDigit b, parseHexPairs cs with
    | some h, some l, .ok bs => .ok (BitVec.ofNat 8 (16 * h + l) :: bs)
    | _, _, _                => .error .malformed
  | _            => .error .malformed

/-- The `number` between the parentheses of zero(n) and seq(n) (R82). DESIGN CHOICE (notes/assumptions/7.md): blanks may stand around
it there, and none behind the closing parenthesis as part of the value. -/
def parseCount (cs : List Char) : Except AsmError Nat :=
  match cs.reverse with
  | ')' :: ds =>
    match parseNumber (trim ds.reverse) with
    | .ok n    => .ok n.toNat
    | .error e => .error e
  | _         => .error .malformed

/-- `seq(n)`: the bytes 0, 1, …, n−1 taken mod 256 (R82). -/
def seqBytes (n : Nat) : List Byte := (List.range n).map (BitVec.ofNat 8)

/-- `value := number | bytes` (R82). -/
def parseValue (cs : List Char) : Except AsmError AsmValue :=
  match cs with
  | '"' :: ds => (parseHexPairs ds).map .bytes
  | 'z' :: 'e' :: 'r' :: 'o' :: '(' :: ds => (parseCount ds).map fun n => .bytes (List.replicate n 0)
  | 's' :: 'e' :: 'q' :: '(' :: ds => (parseCount ds).map fun n => .bytes (seqBytes n)
  | _ => (parseNumber cs).map .number

/-! ### Operands -/

/-- `operand := name "=" value`; names are case-insensitive (R82). DESIGN CHOICE (notes/assumptions/7.md): blanks may stand around the
name and around the value. -/
def parseOperand (cs : List Char) : Except AsmError (List Char × AsmValue) :=
  match splitAtChar '=' cs with
  | [name, value] =>
    match parseValue (trim value) with
    | .ok v    => .ok (lower (trim name), v)
    | .error e => .error e
  | _ => .error .malformed

/-- The operands of a line, separated by commas, or none at all (R82). -/
def parseOperands (cs : List Char) : Except AsmError (List (List Char × AsmValue)) :=
  if trim cs = [] then .ok [] else (splitAtChar ',' cs).mapM parseOperand

/-- The operands as a list of names and values, in the order in which they stand. -/
abbrev Operands := List (List Char × AsmValue)

/-- The value of an operand that may be left out. -/
def Operands.optional (ops : Operands) (name : String) : Except AsmError (Option AsmValue) :=
  match ops.filter fun o => o.1 = name.toList with
  | []  => .ok none
  | [o] => .ok (some o.2)
  | _   => .error .repeatedOperand

/-- A bytes operand that may be left out. -/
def Operands.bytes? (ops : Operands) (name : String) : Except AsmError (Option (List Byte)) :=
  match ops.optional name with
  | .ok none              => .ok none
  | .ok (some (.bytes b)) => .ok (some b)
  | .ok (some _)          => .error .wrongKind
  | .error e              => .error e

/-- A number operand that may be left out. -/
def Operands.number? (ops : Operands) (name : String) : Except AsmError (Option U64) :=
  match ops.optional name with
  | .ok none               => .ok none
  | .ok (some (.number v)) => .ok (some v)
  | .ok (some _)           => .error .wrongKind
  | .error e               => .error e

/-- An operand that must be there (R82). -/
def required {α : Type} : Except AsmError (Option α) → Except AsmError α
  | .ok (some v) => .ok v
  | .ok none     => .error .missingOperand
  | .error e     => .error e

/-- No operand but those of the command's row (R74). -/
def Operands.only (ops : Operands) (names : List String) : Except AsmError Unit :=
  if ops.all fun o => names.any fun n => n.toList = o.1 then .ok () else .error .unknownOperand

/-- Sixteen bytes as a NONCE16; any other number of them is refused (R83). -/
def asNonce16 (b : List Byte) : Except AsmError (Vector Byte 16) :=
  if h : b.length = 16 then .ok ⟨b.toArray, by simpa using h⟩ else .error .nonceLength

/-- `|in|` as a u64. A sequence too long for a u64 is refused, as every other number of more than 64 bits is (R85;
notes/assumptions/10.md). -/
def lengthOf (input : List Byte) : Except AsmError U64 :=
  if input.length < 2 ^ 64 then .ok (BitVec.ofNat 64 input.length) else .error .numberTooWide

/-- A number operand that is `|in|` when it is left out (R83). -/
def orLengthOf (input : List Byte) : Option U64 → Except AsmError U64
  | some v => .ok v
  | none   => lengthOf input

/-! ### Lines -/

/-- `INIT key=<bytes>`; a key of any length is passed on (R83). -/
def assembleInit (ops : Operands) : Except AsmError Instr := do
  ops.only ["key"]
  return .init (← required (ops.bytes? "key"))

/-- `SEEK_NONCE nonce=<bytes, 16>` (R83). -/
def assembleSeekNonce (ops : Operands) : Except AsmError Instr := do
  ops.only ["nonce"]
  return .seekNonce (← asNonce16 (← required (ops.bytes? "nonce")))

/-- `SEEK_BLOCK nonce=<number>, block=<number>` (R83). -/
def assembleSeekBlock (ops : Operands) : Except AsmError Instr := do
  ops.only ["nonce", "block"]
  return .seekBlock (← required (ops.number? "nonce")) (← required (ops.number? "block"))

/-- `SEEK_OFFSET nonce=<number>, offset=<number>` (R83). -/
def assembleSeekOffset (ops : Operands) : Except AsmError Instr := do
  ops.only ["nonce", "offset"]
  return .seekOffset (← required (ops.number? "nonce")) (← required (ops.number? "offset"))

/-- `UPDATE len=<number>, in=<bytes>, outcap=<number>`; len and outcap default to |in| (R83). -/
def assembleUpdate (ops : Operands) : Except AsmError Instr := do
  ops.only ["len", "in", "outcap"]
  let input ← required (ops.bytes? "in")
  let len ← orLengthOf input (← ops.number? "len")
  let outCap ← orLengthOf input (← ops.number? "outcap")
  return .update len input outCap

/-- `WIPE` (R83). -/
def assembleWipe (ops : Operands) : Except AsmError Instr := do
  ops.only []
  return .wipe

/-- `CRYPT_BLOCK key=K, nonce=N, block=B, in=M` (R86). -/
def assembleCryptBlock (ops : Operands) : Except AsmError OneShot := do
  ops.only ["key", "nonce", "block", "in"]
  let input ← required (ops.bytes? "in")
  let _ ← lengthOf input
  return .cryptBlock (← required (ops.bytes? "key")) (← required (ops.number? "nonce")) (← required (ops.number? "block")) input

/-- `CRYPT_OFFSET key=K, nonce=N, offset=O, in=M` (R86). -/
def assembleCryptOffset (ops : Operands) : Except AsmError OneShot := do
  ops.only ["key", "nonce", "offset", "in"]
  let input ← required (ops.bytes? "in")
  let _ ← lengthOf input
  return .cryptOffset (← required (ops.bytes? "key")) (← required (ops.number? "nonce")) (← required (ops.number? "offset")) input

/-- A command from its operands, by the syntax of its row (R83). -/
def assembleOp : Op → Operands → Except AsmError Instr
  | .init       => assembleInit
  | .seekNonce  => assembleSeekNonce
  | .seekBlock  => assembleSeekBlock
  | .seekOffset => assembleSeekOffset
  | .update     => assembleUpdate
  | .wipe       => assembleWipe

/-- The operand fields that an illegal word's operands fill, each by its name. DESIGN CHOICE (notes/assumptions/7.md): an illegal word
has no row of R74, so it may carry any of the rows' operands, each at most once, and one left out stands as no byte or zero; a `nonce`
of bytes is NONCE16, and so has 16 of them, and a `nonce` that is a number is NONCE64. -/
def illegalFields (ops : Operands) : Except AsmError Fields := do
  ops.only ["key", "nonce", "block", "offset", "len", "in", "outcap"]
  let fields : Fields := { Fields.none with
    KEY := (← ops.bytes? "key").getD [], BLOCK64 := (← ops.number? "block").getD 0
    OFFSET64 := (← ops.number? "offset").getD 0, LEN := (← ops.number? "len").getD 0
    IN := (← ops.bytes? "in").getD [], OUT_CAP := (← ops.number? "outcap").getD 0 }
  match (← ops.optional "nonce") with
  | none             => return fields
  | some (.bytes b)  => return { fields with NONCE16 := (← asNonce16 b) }
  | some (.number v) => return { fields with NONCE64 := v }

/-- A raw word with its operands: the word of a command takes that command's operands, by all their rules, and an illegal word takes any
(R82 to R84). -/
def assembleRaw (w : Word) (ops : Operands) : Except AsmError Transaction :=
  match decodeOp w with
  | some op => (assembleOp op ops).map encode
  | none    => (illegalFields ops).map fun f => { CMD := w, fields := f }

/-- `.word 0x<8 hex digits>` followed by its operands (R84). DESIGN CHOICE (notes/assumptions/7.md): blanks may stand before the word,
and one at least parts it from its operands. -/
def assembleWord (cs : List Char) : Except AsmError Transaction :=
  match trimLeft cs with
  | '0' :: 'x' :: ds =>
    match digitsValue hexDigit 16 0 (ds.take 8) with
    | some w =>
      if 8 ≤ ds.length ∧ (ds.drop 8).head?.all isBlank = true then do
        assembleRaw (BitVec.ofNat 32 w) (← parseOperands (ds.drop 8))
      else .error .malformed
    | none => .error .malformed
  | _ => .error .malformed

/-- The command of a mnemonic with its operands. -/
def assembleCommand (ops : Except AsmError Operands) (f : Operands → Except AsmError Instr) : Except AsmError AsmLine := do
  return .command (encode (← f (← ops)))

/-- The pseudo-command of a mnemonic with its operands. -/
def assembleOneShot (ops : Except AsmError Operands) (f : Operands → Except AsmError OneShot) : Except AsmError AsmLine := do
  return .oneShot (← f (← ops))

/-- What a mnemonic, in lower case, makes of the text behind it (R83, R84, R86). -/
def assembleMnemonic (mnemonic rest : List Char) : Except AsmError AsmLine :=
  let ops := parseOperands rest
  if mnemonic = ".word".toList then (assembleWord rest).map .command
  else if mnemonic = "init".toList then assembleCommand ops assembleInit
  else if mnemonic = "seek_nonce".toList then assembleCommand ops assembleSeekNonce
  else if mnemonic = "seek_block".toList then assembleCommand ops assembleSeekBlock
  else if mnemonic = "seek_offset".toList then assembleCommand ops assembleSeekOffset
  else if mnemonic = "update".toList then assembleCommand ops assembleUpdate
  else if mnemonic = "wipe".toList then assembleCommand ops assembleWipe
  else if mnemonic = "crypt_block".toList then assembleOneShot ops assembleCryptBlock
  else if mnemonic = "crypt_offset".toList then assembleOneShot ops assembleCryptOffset
  else .error .unknownMnemonic

/-- One line: a mnemonic, its operands, and perhaps a comment; mnemonics are case-insensitive (R82 to R86). DESIGN CHOICE
(notes/assumptions/7.md): blanks may stand at the line's ends and before a comment, and a blank ends the mnemonic. -/
def assemble (line : List Char) : Except AsmError AsmLine :=
  let text := trim (line.takeWhile fun c => c ≠ ';')
  assembleMnemonic (lower (text.takeWhile fun c => !isBlank c)) (text.dropWhile fun c => !isBlank c)

end Sys2Proof.Machine
end

