-- ==== Sys2Proof/Machine/Registers.lean ====
section
/-! DEFINITION. The register map (10_state.md R32): the context under the spec's register numbers. It is a verification view; no
command reads it and the host has only STATUS of it (R33). -/

namespace Sys2Proof.Machine

/-- CTRL, register 32: CUR in bits 6:0, MODE in bit 7, KEYED in bit 8, bits 31:9 zero (R32). -/
def Context.ctrlRegister (c : Context) : Word :=
  BitVec.ofNat 32 (c.CUR.val + 2 ^ 7 * (modeBit c.MODE).toNat + 2 ^ 8 * c.KEYED.toNat)

/-- STATUS, register 33: the code in bits 1:0, bits 31:2 zero (R32). -/
def Context.statusRegister (c : Context) : Word := (statusCode c.STATUS).setWidth 32

/-- The register of a number; none for a number that R32 does not give. Registers 16 to 31 are KS[4j..4j+3] read with LE32. -/
def Context.register (c : Context) (n : Nat) : Option Word :=
  if h : n < 16 then some c.S[n]
  else if n < 32 then some (le32At c.KS.toList (4 * (n - 16)))
  else if n = 32 then some c.ctrlRegister
  else if n = 33 then some c.statusRegister
  else none

/-- What a host may read of the register map: STATUS, in each response, and nothing else (R32, R33). -/
def Context.hostReadable (c : Context) (n : Nat) : Option Word :=
  if n = 33 then some c.statusRegister else none

end Sys2Proof.Machine
end

