-- ==== Sys2Proof/Machine/Position.lean ====
section
/-! DEFINITION. The keystream position and the keystream (43_keystream_update.md R168, R169): the spec's own vocabulary for what an
UPDATE does. No step reads them. -/

namespace Sys2Proof.Machine

/-- The keystream's length in bytes, 64·W(MODE), after which it repeats (R168, R237). -/
def keystreamLength (m : Mode) : Nat := 64 * wrapOf m

/-- pos(S, MODE, CUR) = (64·ctr − (64 − CUR)) mod 64·W(MODE), the index of the next keystream byte (R168). -/
def pos (S : Words) (m : Mode) (cur : Cursor) : Nat :=
  ((64 * (ctr S m : Int) - (64 - (cur.val : Int))) % (keystreamLength m : Int)).toNat

/-- The position of a context. -/
def Context.pos (c : Context) : Nat := Machine.pos c.S c.MODE c.CUR

/-- KSTREAM(S, MODE, q) = BLOCK(with_ctr(S, MODE, q div 64))[q mod 64] (R169). -/
def kstream (S : Words) (m : Mode) (q : Nat) : Byte :=
  (blockFn (withCtr S m (q / 64)))[q % 64]'(Nat.mod_lt _ (by decide))

/-- The keystream byte that lies `k` bytes on from the context's position, round the end of the keystream if need be (R170). -/
def Context.keystreamByte (c : Context) (k : Nat) : Byte :=
  kstream c.S c.MODE ((c.pos + k) % keystreamLength c.MODE)

/-- How many blocks an UPDATE of `len` bytes generates from a context with cursor `cur` (R165, R166). -/
def genCount (cur : Cursor) (len : Nat) : Nat :=
  if cur.val < 64 ∧ len ≤ 64 - cur.val then 0
  else (len - (if cur.val < 64 then 64 - cur.val else 0) + 63) / 64

end Sys2Proof.Machine
end

