-- ==== Sys2Proof/Safety.lean ====
section
/-! DEFINITION. What every reachable context satisfies (10_state.md R34 to R36, 43_keystream_update.md R167), and what hosts see
(R33). -/

namespace Sys2Proof.Machine

/-- The invariant of the context. -/
structure Context.Inv (c : Context) : Prop where
  /-- While KEYED = 1, S[0..3] hold the constant words (R34). -/
  constants : c.KEYED = true → ∀ i : Fin 4, c.S[i.val] = constWord i
  /-- While KEYED = 1, CUR is in [1, 64] (R34, R167). -/
  cursor : c.KEYED = true → 1 ≤ c.CUR.val
  /-- While KEYED = 1 and CUR < 64, KS is the block generated at the counter value one below the current one (R35). -/
  buffered : c.KEYED = true → c.CUR.val < 64 →
    c.KS = blockFn (withCtr c.S c.MODE ((ctr c.S c.MODE + wrapOf c.MODE - 1) % wrapOf c.MODE))
  /-- While KEYED = 0, everything but STATUS is at its reset value (R36, R39, R191, R204). -/
  unkeyed : c.KEYED = false → c = { Context.reset with STATUS := c.STATUS }

/-- The invariant of the machine is that of its context. -/
def State.Inv (s : State) : Prop := s.ctx.Inv

/-- What the hosts see of the block: the responses, and nothing else (R33). -/
def State.hostView (s : State) : List Delivery := s.delivered

/-- The command port's queues, its schedule's index, its reset input and the responses already given are the same: no command writes
them (R20 gives a command nothing but the context to write, and R70 its response). -/
structure State.SamePort (s t : State) : Prop where
  queues    : t.queues = s.queues
  turn      : t.turn = s.turn
  resetIn   : t.resetIn = s.resetIn
  delivered : t.delivered = s.delivered

/-- The commands that need a key: the three seeks and UPDATE (R30, R202). -/
def Op.needsKey : Op → Bool
  | .init       => false
  | .seekNonce  => true
  | .seekBlock  => true
  | .seekOffset => true
  | .update     => true
  | .wipe       => false

/-- The three seeks (R136 to R138). -/
def Op.isSeek : Op → Bool
  | .init       => false
  | .seekNonce  => true
  | .seekBlock  => true
  | .seekOffset => true
  | .update     => false
  | .wipe       => false

/-- The status that the spec's table of causes and their one priority give a transaction (R200 to R203, R206). -/
def expectedStatus (keyed : Bool) (t : Transaction) : Status :=
  match decodeOp t.CMD with
  | none    => .illegalCommand
  | some op =>
    if Op.needsKey op = true ∧ keyed = false then .notKeyed
    else if op = .update ∧ t.fields.LEN = 0 then .ok
    else if (op = .init ∧ t.fields.KEY.length ≠ 32) ∨
        (op = .update ∧ (t.fields.IN.length ≠ t.fields.LEN.toNat ∨ t.fields.OUT_CAP ≠ t.fields.LEN)) then .invalidArgument
    else .ok

end Sys2Proof.Machine
end

