-- ==== Sys2Proof/Certificates/Slice0/Obligations.lean ====
section
/-! DEFINITION. The statements about the model, for the provers. Each names the spec's rule or section that it formalises. -/

open Sys2Proof Sys2Proof.Machine

/-! ### Reset, registers and the port -/

/-- R39: after reset every part of the context is zero, KEYED = 0 and STATUS = OK; the same values that WIPE leaves. -/
def Obligations.ResetLeavesTheContextZero : Prop :=
  (∀ j (_ : j < 16), State.reset.ctx.S[j] = 0) ∧ (∀ k (_ : k < 64), State.reset.ctx.KS[k] = 0) ∧
  State.reset.ctx.CUR.val = 0 ∧ modeBit State.reset.ctx.MODE = 0 ∧ State.reset.ctx.KEYED = false ∧
  statusCode State.reset.ctx.STATUS = 0 ∧ ∀ s : State, ∃ u, exec .wipe s = .next u ∧ u.ctx = State.reset.ctx

/-- 70_reset_and_hazards.md section 1: a step that finds a reset puts the context at its reset values, delivers no response, and abandons
the command in progress: exactly that one leaves its queue, and no other command does. How a reset stands at the port, that it does not
restart the schedule and that the abandoned command uses up an entry of it, is the model's own choice (notes/assumptions/8.md). -/
def Obligations.ResetAbandonsTheCommandInProgress : Prop :=
  ∀ (s : State) (a : ResetArrival), s.resetIn = some a →
    ∃ u, step s = .next u ∧ u.ctx = State.reset.ctx ∧ u.response = none ∧ u.resetIn = none ∧ u.delivered = s.delivered ∧
      (a = .betweenCommands → u.queues = s.queues ∧ u.turn = s.turn) ∧
      (a = .duringCommand → s.nextCommand = none → u.queues = s.queues ∧ u.turn = s.turn) ∧
      (∀ h t, a = .duringCommand → s.nextCommand = some (h, t) →
        s.queueOf h = t :: u.queueOf h ∧ (∀ h', h' ≠ h → u.queueOf h' = s.queueOf h') ∧ u.turn = s.turn + 1)

/-- 10_state.md section 2: the packing of CTRL and STATUS, reserved bits zero, KS0 to KS15 as LE32 of four bytes of KS each, every register
zero after reset, and STATUS the one that a host may read. -/
def Obligations.RegisterMapPacksTheContext : Prop :=
  ∀ c : Context,
    (∀ n (_ : n < 16), c.register n = some c.S[n]) ∧
    (∀ j (_ : j < 16), ∃ w, c.register (16 + j) = some w ∧
      w.toNat = c.KS[4 * j].toNat + 2 ^ 8 * c.KS[4 * j + 1].toNat + 2 ^ 16 * c.KS[4 * j + 2].toNat +
        2 ^ 24 * c.KS[4 * j + 3].toNat) ∧
    (∃ w, c.register 32 = some w ∧ w.toNat % 2 ^ 7 = c.CUR.val ∧ w.toNat / 2 ^ 7 % 2 = (modeBit c.MODE).toNat ∧
      w.toNat / 2 ^ 8 % 2 = c.KEYED.toNat ∧ w.toNat / 2 ^ 9 = 0) ∧
    (∃ w, c.register 33 = some w ∧ w.toNat % 2 ^ 2 = (statusCode c.STATUS).toNat ∧ w.toNat / 2 ^ 2 = 0) ∧
    (∀ n, 33 < n → c.register n = none) ∧ (∀ n ≤ 33, State.reset.ctx.register n = some 0) ∧
    c.hostReadable 33 = c.register 33 ∧ ∀ n, n ≠ 33 → c.hostReadable n = none

/-- 20_memory.md section 5: what the block accepts next is the first command that its host has issued and not yet had accepted; a step takes
it from that host's queue and leaves every other host's queue as it is. That the index into the schedule goes on by one with every accepted
command is the model's choice (notes/assumptions/1.md). -/
def Obligations.EachHostsCommandsGoInOrder : Prop :=
  ∀ (s : State) (h : Nat) (t : Transaction), s.resetIn = none → s.nextCommand = some (h, t) →
    ∃ u, step s = .next u ∧ s.queueOf h = t :: u.queueOf h ∧ (∀ h', h' ≠ h → u.queueOf h' = s.queueOf h') ∧
      u.turn = s.turn + 1

/-- 20_memory.md section 5 and 92_eei_decisions.md D21: whichever numbers the free schedule holds (notes/assumptions/1.md), some waiting
command is accepted whenever any host has one waiting. -/
def Obligations.SomeWaitingCommandIsAccepted : Prop :=
  ∀ s : State, (∃ h, s.queueOf h ≠ []) → ∃ h t, s.nextCommand = some (h, t) ∧ (s.queueOf h).head? = some t

/-- 70_reset_and_hazards.md section 4 and 60_exceptions.md section 3: every step goes on to a next state; none traps, and none stops. With no
reset and no command waiting it leaves everything as it is: 10_state.md section 1 names no other writer of the context. What a step is when
nothing waits, and that a reset is taken by one, are the model's choices (notes/assumptions/6.md and 8.md). -/
def Obligations.EveryStepGoesOn : Prop :=
  ∀ s : State, (∃ u, step s = .next u) ∧ (s.resetIn = none → s.nextCommand = none → step s = .next s)

/-! ### Decoding and encoding -/

/-- R72: the six command words, with whatever stands in the operand fields; every word whose OP is 0x0 or 0x7 to 0xF is illegal, and so are
V50's words. -/
def Obligations.TableWordsDecodeToTheirCommands : Prop :=
  (∀ f : Fields,
    decode { CMD := 0x00000001, fields := f } = .command (.init f.KEY) ∧
    decode { CMD := 0x00000002, fields := f } = .command (.seekNonce f.NONCE16) ∧
    decode { CMD := 0x00000003, fields := f } = .command (.seekBlock f.NONCE64 f.BLOCK64) ∧
    decode { CMD := 0x00000004, fields := f } = .command (.seekOffset f.NONCE64 f.OFFSET64) ∧
    decode { CMD := 0x00000005, fields := f } = .command (.update f.LEN f.IN f.OUT_CAP) ∧
    decode { CMD := 0x00000006, fields := f } = .command .wipe) ∧
  (∀ (w : Word) (f : Fields), w.toNat % 16 = 0 ∨ 7 ≤ w.toNat % 16 →
    decode { CMD := w, fields := f } = .rejected .illegalCommand) ∧
  (∀ w ∈ ([0x00000000, 0x00000007, 0x0000000f, 0x00000011, 0x80000005, 0xffffffff] : List Word), ∀ f : Fields,
    decode { CMD := w, fields := f } = .rejected .illegalCommand)

/-- R73: decoding is total, "each legal command has exactly one legal word, equal to zext_32(OP)", and a word of no command is rejected with
ILLEGAL_COMMAND, whatever operands come with it. -/
def Obligations.EachCommandHasExactlyOneWord : Prop :=
  (∀ (w : Word) (op : Op), decodeOp w = some op ↔
    w.toNat = (match op with
      | .init => 1 | .seekNonce => 2 | .seekBlock => 3 | .seekOffset => 4 | .update => 5 | .wipe => 6)) ∧
  ∀ (w : Word) (f : Fields) (s : State), (∀ op, decodeOp w ≠ some op) →
    ∃ u, perform { CMD := w, fields := f } s = .next u ∧ u.response = some { status := .illegalCommand, out := [] }

/-- 30_encoding.md sections 2 and 3: the transaction of a well-formed instruction is well-formed and decodes to that instruction, and no
other transaction that carries the instruction's operand fields and no others does. -/
def Obligations.EncodingIsTheOneTransactionThatDecodesBack : Prop :=
  ∀ i : Instr, i.wellFormed = true → (encode i).wellFormed = true ∧
    ∀ t : Transaction, (decode t = .command i ∧ t.fields = i.fields) ↔ t = encode i

/-- R80, R203: the illegal words are those with RSVD ≠ 0 or a reserved OP; each is rejected with ILLEGAL_COMMAND, whatever comes with it,
and changes nothing but STATUS (and the response that reports it). -/
def Obligations.IllegalWordsChangeOnlyStatus : Prop :=
  ∀ (t : Transaction) (s : State),
    (decode t = .rejected .illegalCommand ↔
      (t.CMD.toNat / 16 ≠ 0 ∨ t.CMD.toNat % 16 = 0 ∨ 7 ≤ t.CMD.toNat % 16)) ∧
    ((t.CMD.toNat / 16 ≠ 0 ∨ t.CMD.toNat % 16 = 0 ∨ 7 ≤ t.CMD.toNat % 16) →
      perform t s = .next { s with
        ctx := { s.ctx with STATUS := .illegalCommand }, response := some { status := .illegalCommand, out := [] } })

/-- 30_encoding.md sections 1, 2 and 4: a step performs the transaction that it accepts, whatever its word, on the state after acceptance,
and adds its response to what has been delivered, for the host that issued it. A word that decodes runs its command; an illegal word is
answered with ILLEGAL_COMMAND and changes STATUS alone. Acceptance itself leaves the context and the deliveries as they were. -/
def Obligations.StepRunsTheDecodedCommand : Prop :=
  ∀ (s : State) (h : Nat) (t : Transaction), s.resetIn = none → s.nextCommand = some (h, t) →
    (s.accept h).ctx = s.ctx ∧ (s.accept h).delivered = s.delivered ∧
    ∃ u r, perform t (s.accept h) = .next u ∧ u.response = some r ∧
      step s = .next { u with delivered := s.delivered ++ [{ host := h, response := r }] } ∧
      (∀ i, decode t = .command i → exec i (s.accept h) = .next u) ∧
      ((∀ i, decode t ≠ .command i) → r = { status := .illegalCommand, out := [] } ∧
        u = { s.accept h with ctx := { s.ctx with STATUS := .illegalCommand }, response := some r })

/-- 30_encoding.md section 2: a number of the opcode table placed as the next command (`withFetchWord`, the model's own, notes/assumptions/4.md
and 5.md) is what the next step runs: the step is `exec` of the instruction that `decodeTableWord` reads, on a state whose queues are
those of before. -/
def Obligations.FetchedTableWordIsTheNextCommand : Prop :=
  ∀ (s : State) (w : Nat) (i : Instr), decodeTableWord 32 w = some i →
    ∃ h v u, v.ctx = s.ctx ∧ (∀ h', v.queueOf h' = s.queueOf h') ∧ exec i v = .next u ∧
      step (s.withFetchWord 32 w) = .next (u.deliver h)

/-! ### INIT -/

/-- R120, R121, R75: INIT whole. With a 32-byte key it writes the constants, the eight little-endian key words, a zero counter region, KS = 0,
CUR = 64, MODE = 0, KEYED = 1 and STATUS = OK, whatever KEYED was; with a key of any other length only STATUS changes. -/
def Obligations.InitLoadsAKeyOfThirtyTwoBytes : Prop :=
  ∀ (key : List Byte) (s : State),
    (∀ f : Fields, f.KEY = key → decode { CMD := 0x00000001, fields := f } = .command (.init key)) ∧
    assembleInit [("key".toList, .bytes key)] = .ok (.init key) ∧
    (key.length = 32 → ∃ u, exec (.init key) s = .next u ∧
      u.ctx.S[0] = 0x61707865 ∧ u.ctx.S[1] = 0x3320646e ∧ u.ctx.S[2] = 0x79622d32 ∧ u.ctx.S[3] = 0x6b206574 ∧
      (∀ i (_ : i < 8), u.ctx.S[4 + i].toNat =
        (key.getD (4 * i) 0).toNat + 2 ^ 8 * (key.getD (4 * i + 1) 0).toNat + 2 ^ 16 * (key.getD (4 * i + 2) 0).toNat +
          2 ^ 24 * (key.getD (4 * i + 3) 0).toNat) ∧
      u.ctx.S[12] = 0 ∧ u.ctx.S[13] = 0 ∧ u.ctx.S[14] = 0 ∧ u.ctx.S[15] = 0 ∧ (∀ k (_ : k < 64), u.ctx.KS[k] = 0) ∧
      u.ctx.CUR.val = 64 ∧ u.ctx.MODE = .block ∧ u.ctx.KEYED = true ∧ u.ctx.STATUS = .ok ∧
      u.response = some { status := .ok, out := [] } ∧ s.SamePort u) ∧
    (key.length ≠ 32 → exec (.init key) s = .next { s with
      ctx := { s.ctx with STATUS := .invalidArgument }, response := some { status := .invalidArgument, out := [] } })

/-- R124: after a successful INIT nothing of the old context is left: two blocks with any contexts end with the same one. -/
def Obligations.InitForgetsTheOldContext : Prop :=
  ∀ (key : List Byte) (s t : State), key.length = 32 →
    ∃ u v, exec (.init key) s = .next u ∧ exec (.init key) t = .next v ∧ u.ctx = v.ctx ∧ u.response = v.response

/-! ### The seeks -/

/-- R136, R76: SEEK_NONCE whole; after sixteen bytes 0xff, one increment wraps the counter region to zero. -/
def Obligations.SeekNonceWritesTheWholeCounterRegion : Prop :=
  ∀ (nonce : Vector Byte 16) (s : State),
    (∀ f : Fields, f.NONCE16 = nonce → decode { CMD := 0x00000002, fields := f } = .command (.seekNonce nonce)) ∧
    assembleSeekNonce [("nonce".toList, .bytes nonce.toList)] = .ok (.seekNonce nonce) ∧
    (s.ctx.KEYED = true → ∃ S : Words,
      exec (.seekNonce nonce) s = .next { s with
        ctx := { s.ctx with S := S, MODE := .nonce128, CUR := 64, STATUS := .ok }
        response := some { status := .ok, out := [] } } ∧
      (∀ j (_ : j < 12), S[j] = s.ctx.S[j]) ∧
      (∀ i (_ : i < 4), S[12 + i].toNat = nonce[4 * i].toNat + 2 ^ 8 * nonce[4 * i + 1].toNat +
        2 ^ 16 * nonce[4 * i + 2].toNat + 2 ^ 24 * nonce[4 * i + 3].toNat) ∧
      ((∀ k (_ : k < 16), nonce[k] = 0xff) → ∀ i (_ : i < 4), (ctrInc .nonce128 S)[12 + i] = 0)) ∧
    (s.ctx.KEYED = false → exec (.seekNonce nonce) s = .next { s with
      ctx := { s.ctx with STATUS := .notKeyed }, response := some { status := .notKeyed, out := [] } })

/-- R137, R77: SEEK_BLOCK whole, with the keystream position that it leaves; from block 2^64 − 1 one increment wraps the block counter to 0 and
leaves the nonce words. -/
def Obligations.SeekBlockSplitsCounterAndNonce : Prop :=
  ∀ (nonce blk : U64) (s : State),
    (∀ f : Fields, f.NONCE64 = nonce → f.BLOCK64 = blk →
      decode { CMD := 0x00000003, fields := f } = .command (.seekBlock nonce blk)) ∧
    assembleSeekBlock [("nonce".toList, .number nonce), ("block".toList, .number blk)] = .ok (.seekBlock nonce blk) ∧
    (s.ctx.KEYED = true → ∃ S : Words,
      exec (.seekBlock nonce blk) s = .next { s with
        ctx := { s.ctx with S := S, MODE := .block, CUR := 64, STATUS := .ok }
        response := some { status := .ok, out := [] } } ∧
      (∀ j (_ : j < 12), S[j] = s.ctx.S[j]) ∧
      S[12].toNat = blk.toNat % 2 ^ 32 ∧ S[13].toNat = blk.toNat / 2 ^ 32 ∧
      S[14].toNat = nonce.toNat % 2 ^ 32 ∧ S[15].toNat = nonce.toNat / 2 ^ 32 ∧ pos S .block 64 = 64 * blk.toNat ∧
      (blk.toNat = 2 ^ 64 - 1 → (ctrInc .block S)[12] = 0 ∧ (ctrInc .block S)[13] = 0 ∧
        (ctrInc .block S)[14] = S[14] ∧ (ctrInc .block S)[15] = S[15])) ∧
    (s.ctx.KEYED = false → exec (.seekBlock nonce blk) s = .next { s with
      ctx := { s.ctx with STATUS := .notKeyed }, response := some { status := .notKeyed, out := [] } })

/-- R138, R78: SEEK_OFFSET whole. The counter is OFFSET64 div 64; when OFFSET64 mod 64 is not 0, KS takes that block, the counter goes on by
one and CUR is OFFSET64 mod 64. -/
def Obligations.SeekOffsetLandsInsideItsBlock : Prop :=
  ∀ (nonce offset : U64) (s : State),
    (∀ f : Fields, f.NONCE64 = nonce → f.OFFSET64 = offset →
      decode { CMD := 0x00000004, fields := f } = .command (.seekOffset nonce offset)) ∧
    assembleSeekOffset [("nonce".toList, .number nonce), ("offset".toList, .number offset)] =
      .ok (.seekOffset nonce offset) ∧
    (s.ctx.KEYED = true → ∃ S T : Words,
      (∀ j (_ : j < 12), S[j] = s.ctx.S[j] ∧ T[j] = s.ctx.S[j]) ∧
      S[12].toNat + 2 ^ 32 * S[13].toNat = offset.toNat / 64 ∧
      T[12].toNat + 2 ^ 32 * T[13].toNat = offset.toNat / 64 + 1 ∧
      (S[14].toNat = nonce.toNat % 2 ^ 32 ∧ S[15].toNat = nonce.toNat / 2 ^ 32) ∧ (T[14] = S[14] ∧ T[15] = S[15]) ∧
      (offset.toNat % 64 = 0 → exec (.seekOffset nonce offset) s = .next { s with
        ctx := { s.ctx with S := S, MODE := .block, CUR := 64, STATUS := .ok }
        response := some { status := .ok, out := [] } }) ∧
      (0 < offset.toNat % 64 → ∃ cur : Cursor, cur.val = offset.toNat % 64 ∧
        exec (.seekOffset nonce offset) s = .next { s with
          ctx := { s.ctx with S := T, KS := blockFn S, MODE := .block, CUR := cur, STATUS := .ok }
          response := some { status := .ok, out := [] } })) ∧
    (s.ctx.KEYED = false → exec (.seekOffset nonce offset) s = .next { s with
      ctx := { s.ctx with STATUS := .notKeyed }, response := some { status := .notKeyed, out := [] } })

/-- R140: no seek writes S[0..11] or KEYED, whatever becomes of it, and none returns an output byte. The block that SEEK_OFFSET generates
goes only to KS: KS takes it when the offset lies inside a block and stays otherwise, as it does in the other seeks; and what else a seek
writes or answers does not depend on it, being the same from any other keyed state, whatever its key. -/
def Obligations.SeeksKeepTheKeyAndPutOutNothing : Prop :=
  ∀ (i : Instr) (s u : State), Op.isSeek i.op = true → exec i s = .next u →
    (∀ j (_ : j < 12), u.ctx.S[j] = s.ctx.S[j]) ∧ u.ctx.KEYED = s.ctx.KEYED ∧ u.out = [] ∧ s.SamePort u ∧
    (i.op ≠ .seekOffset ∨ s.ctx.KEYED = false → u.ctx.KS = s.ctx.KS) ∧
    (∀ nonce offset, i = .seekOffset nonce offset → s.ctx.KEYED = true →
      u.ctx.KS = if offset.toNat % 64 = 0 then s.ctx.KS else blockFn (withCtr u.ctx.S .block (offset.toNat / 64))) ∧
    (∀ v w : State, s.ctx.KEYED = true → v.ctx.KEYED = true → exec i v = .next w →
      (∀ j (_ : 12 ≤ j) (_ : j < 16), w.ctx.S[j] = u.ctx.S[j]) ∧ w.ctx.MODE = u.ctx.MODE ∧ w.ctx.CUR = u.ctx.CUR ∧
      w.ctx.STATUS = u.ctx.STATUS ∧ w.response = u.response)

/-- 42_counter_and_seek.md section 2 (R141, which the spec derives): the last seek alone decides the counter region, MODE and CUR. -/
def Obligations.TheLastSeekDecides : Prop :=
  ∀ (a b : Instr) (s u v w : State), Op.isSeek a.op = true → Op.isSeek b.op = true → s.ctx.KEYED = true →
    exec a s = .next u → exec b u = .next v → exec b s = .next w →
    v.ctx.S = w.ctx.S ∧ v.ctx.MODE = w.ctx.MODE ∧ v.ctx.CUR = w.ctx.CUR ∧ (v.ctx.CUR.val < 64 → v.ctx.KS = w.ctx.KS)

/-- 42_counter_and_seek.md section 2 (R139, which the spec derives): SEEK_OFFSET to 64·k gives the same context as SEEK_BLOCK to k, KS
included; and an offset of 2^64 − 1 leaves CUR = 63 and the block counter at 2^58. -/
def Obligations.SeekOffsetToABlockIsSeekBlock : Prop :=
  (∀ (nonce k offset : U64) (s : State), k.toNat < 2 ^ 58 → offset.toNat = 64 * k.toNat →
    exec (.seekOffset nonce offset) s = exec (.seekBlock nonce k) s) ∧
  (∀ (nonce : U64) (s : State), s.ctx.KEYED = true → ∃ u, exec (.seekOffset nonce 0xffffffffffffffff) s = .next u ∧
    u.ctx.S[12].toNat = 0 ∧ u.ctx.S[13].toNat = 0x04000000 ∧ u.ctx.CUR.val = 63)

/-- 20_memory.md section 1 (R52, which the spec derives): a SEEK_NONCE of the eight little-endian bytes of B and then those of N leaves the
words that SEEK_BLOCK(N, B) leaves; only MODE differs. -/
def Obligations.SeekNonceAndSeekBlockAgreeOnTheWords : Prop :=
  ∀ (nonce blk : U64) (v : Vector Byte 16) (s : State), s.ctx.KEYED = true →
    (∀ k (_ : k < 8), v[k].toNat = blk.toNat / 2 ^ (8 * k) % 2 ^ 8 ∧
      v[8 + k].toNat = nonce.toNat / 2 ^ (8 * k) % 2 ^ 8) →
    ∃ u w, exec (.seekNonce v) s = .next u ∧ exec (.seekBlock nonce blk) s = .next w ∧
      { u.ctx with MODE := .block } = w.ctx

/-! ### The permutation core and the counter -/

/-- R101, R103 (and the pseudocode of R104 and R105): a double round is QR at the four columns and then at the four diagonals, QR does its four lines in order and
leaves every other word alone, and PERM is 10 double rounds. -/
def Obligations.PermutationIsTenDoubleRounds : Prop :=
  (∀ a b c d : Word, ∃ a1 b1 c1 d1 a2 b2 c2 d2 : Word,
    a1 = a + b ∧ d1 = (d ^^^ a1).rotateLeft 16 ∧ c1 = c + d1 ∧ b1 = (b ^^^ c1).rotateLeft 12 ∧
    a2 = a1 + b1 ∧ d2 = (d1 ^^^ a2).rotateLeft 8 ∧ c2 = c1 + d2 ∧ b2 = (b1 ^^^ c2).rotateLeft 7 ∧
    qr a b c d = (a2, b2, c2, d2)) ∧
  (∀ (x : Words) (i j k l : Fin 16), [i, j, k, l].Nodup →
    ((qrAt x (i, j, k, l))[i], (qrAt x (i, j, k, l))[j], (qrAt x (i, j, k, l))[k], (qrAt x (i, j, k, l))[l]) =
      qr x[i] x[j] x[k] x[l] ∧
    ∀ m : Fin 16, m ∉ [i, j, k, l] → (qrAt x (i, j, k, l))[m] = x[m]) ∧
  (∀ x : Words, perm x = Nat.repeat doubleRound 10 x) ∧
  (∀ x : Words, doubleRound x =
    [(0, 4, 8, 12), (1, 5, 9, 13), (2, 6, 10, 14), (3, 7, 11, 15),
     (0, 5, 10, 15), (1, 6, 11, 12), (2, 7, 8, 13), (3, 4, 9, 14)].foldl (fun y q => qrAt y q) x)

/-- 40_permutation_core.md section 1 (R102, whose invertibility the spec derives): QR is a bijection on (u32)^4. -/
def Obligations.QuarterRoundIsABijection : Prop :=
  Function.Bijective fun w : Word × Word × Word × Word => qr w.1 w.2.1 w.2.2.1 w.2.2.2

/-- 40_permutation_core.md section 2 (R105, whose corner cases the spec derives): PERM is a bijection on (u32)^16, and maps zero to zero. -/
def Obligations.PermutationIsABijection : Prop :=
  Function.Bijective perm ∧ perm (Vector.replicate 16 0) = Vector.replicate 16 0

/-- 40_permutation_core.md section 2 (R104, whose second half the spec derives): in whatever order a round's four quadruples are taken, the
round comes out the same. -/
def Obligations.RoundsDoNotDependOnTheirOrder : Prop :=
  ∀ (x : Words) (order : List Quad),
    (order.Perm columns → order.foldl qrAt x = columnRound x) ∧
    (order.Perm diagonals → order.foldl qrAt x = diagonalRound x)

/-- R106: byte 4i + j of BLOCK(s) is bits 8j+7 to 8j of PERM(s)[i] + s[i] modulo 2^32. -/
def Obligations.BlockIsTheFeedForwardLittleEndian : Prop :=
  ∀ (s : Words) (i j : Nat) (_ : i < 16) (_ : j < 4),
    (blockFn s)[4 * i + j].toNat = ((perm s)[i].toNat + s[i].toNat) % 2 ^ 32 / 2 ^ (8 * j) % 2 ^ 8

/-- R132: in MODE = 0 the increment adds 1 to the 64-bit counter of words 12 and 13, modulo 2^64, and writes no other word. -/
def Obligations.IncrementInBlockModeIsSixtyFourBits : Prop :=
  ∀ S : Words,
    (ctrInc .block S)[12].toNat + 2 ^ 32 * (ctrInc .block S)[13].toNat =
      (S[12].toNat + 2 ^ 32 * S[13].toNat + 1) % 2 ^ 64 ∧
    ∀ j (_ : j < 16), j ≠ 12 → j ≠ 13 → (ctrInc .block S)[j] = S[j]

/-- R133: in MODE = 1 the increment adds 1 to the 128-bit value of words 12 to 15, modulo 2^128, and writes no other word. -/
def Obligations.IncrementInNonceModeIsAllTheRegion : Prop :=
  ∀ S : Words,
    (ctrInc .nonce128 S)[12].toNat + 2 ^ 32 * (ctrInc .nonce128 S)[13].toNat + 2 ^ 64 * (ctrInc .nonce128 S)[14].toNat +
        2 ^ 96 * (ctrInc .nonce128 S)[15].toNat =
      (S[12].toNat + 2 ^ 32 * S[13].toNat + 2 ^ 64 * S[14].toNat + 2 ^ 96 * S[15].toNat + 1) % 2 ^ 128 ∧
    ∀ j (_ : j < 12), (ctrInc .nonce128 S)[j] = S[j]

/-- R161: GEN puts the block of the state from before the increment into KS and counts on by one in the width of MODE; it writes S[12..15]
(S[12..13] alone in MODE = 0) and nothing else. -/
def Obligations.KeystreamGeneratorTakesTheBlockThenCounts : Prop :=
  ∀ c : Context, ∃ S : Words, c.gen = { c with KS := blockFn c.S, S := S } ∧
    ctr S c.MODE = (ctr c.S c.MODE + 1) % (match c.MODE with | .block => 2 ^ 64 | .nonce128 => 2 ^ 128) ∧
    (∀ j (_ : j < 12), S[j] = c.S[j]) ∧ (c.MODE = .block → S[14] = c.S[14] ∧ S[15] = c.S[15])

/-! ### UPDATE -/

/-- R163, R166: the checks of UPDATE in their order, each with its whole effect. -/
def Obligations.UpdateChecksInOrder : Prop :=
  ∀ (len cap : U64) (input : List Byte) (s : State),
    (s.ctx.KEYED = false → exec (.update len input cap) s = .next { s with
      ctx := { s.ctx with STATUS := .notKeyed }, response := some { status := .notKeyed, out := [] } }) ∧
    (s.ctx.KEYED = true → len = 0 → exec (.update len input cap) s = .next { s with
      ctx := { s.ctx with STATUS := .ok }, response := some { status := .ok, out := [] } }) ∧
    (s.ctx.KEYED = true → len ≠ 0 → (input.length ≠ len.toNat ∨ cap ≠ len) →
      exec (.update len input cap) s = .next { s with
        ctx := { s.ctx with STATUS := .invalidArgument }, response := some { status := .invalidArgument, out := [] } })

/-- 43_keystream_update.md section 2 (R165 and R167, which the spec derives): on a keyed context an UPDATE whose sizes agree completes with
exactly LEN output bytes, moves the counter on by the number of blocks that it generates, and leaves CUR in [1, 64]; S[0..11], MODE and
KEYED stay, in MODE = 0 the nonce words stay, and no block generated means that KS stays. -/
def Obligations.UpdateCompletesAndCountsItsBlocks : Prop :=
  ∀ (len cap : U64) (input : List Byte) (s : State), s.ctx.KEYED = true → len ≠ 0 → input.length = len.toNat → cap = len →
    ∃ u, exec (.update len input cap) s = .next u ∧ u.ctx.STATUS = .ok ∧
      (∃ out, u.response = some { status := .ok, out := out } ∧ out.length = len.toNat) ∧
      ctr u.ctx.S s.ctx.MODE =
        (ctr s.ctx.S s.ctx.MODE + genCount s.ctx.CUR len.toNat) % wrapOf s.ctx.MODE ∧
      u.ctx.CUR.val + 64 * genCount s.ctx.CUR len.toNat = s.ctx.CUR.val + len.toNat ∧
      1 ≤ u.ctx.CUR.val ∧ u.ctx.CUR.val ≤ 64 ∧
      (∀ j (_ : j < 12), u.ctx.S[j] = s.ctx.S[j]) ∧ u.ctx.MODE = s.ctx.MODE ∧ u.ctx.KEYED = true ∧
      (s.ctx.MODE = .block → u.ctx.S[14] = s.ctx.S[14] ∧ u.ctx.S[15] = s.ctx.S[15]) ∧
      (genCount s.ctx.CUR len.toNat = 0 → u.ctx.KS = s.ctx.KS ∧ u.ctx.S = s.ctx.S) ∧ s.SamePort u

/-- R164: the three steps of an UPDATE whose checks pass, each on the state that the step before leaves. Step 1 uses what is left of the buffered
block, and the rest goes on as the UPDATE of the bytes that remain; step 2 generates a block, uses all 64 bytes of it, and goes on with the
rest; step 3 generates a block and uses as many bytes of it as remain, which is then CUR; STATUS = OK. -/
def Obligations.UpdateTakesItsThreeSteps : Prop :=
  ∀ (input : List Byte) (s : State), s.ctx.KEYED = true → input.length < 2 ^ 64 →
    (input = [] → exec (wholeUpdate input) s = .next { s with
      ctx := { s.ctx with STATUS := .ok }, response := some { status := .ok, out := [] } }) ∧
    (∀ n, s.ctx.CUR.val < 64 → n = min input.length (64 - s.ctx.CUR.val) → ∃ (cur : Cursor) (u v : State),
      exec (wholeUpdate input) s = .next u ∧
      exec (wholeUpdate (input.drop n)) { s with ctx := { s.ctx with CUR := cur } } = .next v ∧
      cur.val = s.ctx.CUR.val + n ∧ u.ctx = v.ctx ∧ u.out.drop n = v.out ∧ u.ctx.STATUS = .ok ∧ s.SamePort u ∧
      ∀ k < n, ∃ ks : Byte, s.ctx.KS[s.ctx.CUR.val + k]? = some ks ∧ u.out[k]? = some (input.getD k 0 ^^^ ks)) ∧
    (s.ctx.CUR.val = 64 → 64 ≤ input.length → ∃ u v : State,
      exec (wholeUpdate input) s = .next u ∧ exec (wholeUpdate (input.drop 64)) { s with ctx := s.ctx.gen } = .next v ∧
      u.ctx = v.ctx ∧ u.out.drop 64 = v.out ∧ u.ctx.STATUS = .ok ∧ s.SamePort u ∧
      ∀ k < 64, ∃ ks : Byte, s.ctx.gen.KS[k]? = some ks ∧ u.out[k]? = some (input.getD k 0 ^^^ ks)) ∧
    (s.ctx.CUR.val = 64 → 0 < input.length → input.length < 64 → ∃ (cur : Cursor) (out : List Byte),
      exec (wholeUpdate input) s = .next { s with
        ctx := { s.ctx.gen with CUR := cur, STATUS := .ok }, response := some { status := .ok, out := out } } ∧
      cur.val = input.length ∧ out.length = input.length ∧
      ∀ k < input.length, ∃ ks : Byte, s.ctx.gen.KS[k]? = some ks ∧ out[k]? = some (input.getD k 0 ^^^ ks))

/-- 43_keystream_update.md section 2, step 1 alone, when the buffered block is enough: no block is generated, CUR goes on by LEN, and the bytes are exclusive-ored with
KS from CUR on. -/
def Obligations.UpdateInsideTheBufferedBlock : Prop :=
  ∀ (len : U64) (input : List Byte) (s : State), s.ctx.KEYED = true → len ≠ 0 → input.length = len.toNat →
    s.ctx.CUR.val + len.toNat ≤ 64 →
    ∃ (cur : Cursor) (out : List Byte),
      exec (.update len input len) s = .next { s with
        ctx := { s.ctx with CUR := cur, STATUS := .ok }, response := some { status := .ok, out := out } } ∧
      cur.val = s.ctx.CUR.val + len.toNat ∧ out.length = len.toNat ∧
      ∀ k (_ : k < len.toNat), ∃ ks : Byte, s.ctx.KS[s.ctx.CUR.val + k]? = some ks ∧
        out[k]? = some (input.getD k 0 ^^^ ks)

/-- 43_keystream_update.md section 2, steps 2 and 3 from CUR = 64 with at most one block of input: exactly one GEN, and CUR = LEN, which is 64 for a whole block. -/
def Obligations.UpdateOfOneFreshBlock : Prop :=
  ∀ (len : U64) (input : List Byte) (s : State), s.ctx.KEYED = true → s.ctx.CUR.val = 64 → len ≠ 0 → len.toNat ≤ 64 →
    input.length = len.toNat →
    ∃ (cur : Cursor) (out : List Byte),
      exec (.update len input len) s = .next { s with
        ctx := { s.ctx with S := ctrInc s.ctx.MODE s.ctx.S, KS := blockFn s.ctx.S, CUR := cur, STATUS := .ok }
        response := some { status := .ok, out := out } } ∧
      cur.val = len.toNat ∧ out.length = len.toNat ∧
      ∀ k (_ : k < len.toNat), ∃ ks : Byte, (blockFn s.ctx.S)[k]? = some ks ∧ out[k]? = some (input.getD k 0 ^^^ ks)

/-- 43_keystream_update.md section 3 (R170, the law of UPDATE, which the spec derives). Its premise is the invariant of R35, which
`StepKeepsTheInvariant` states. -/
def Obligations.LawOfUpdate : Prop :=
  ∀ (len cap : U64) (input : List Byte) (s : State), s.ctx.Inv → s.ctx.KEYED = true → len ≠ 0 →
    input.length = len.toNat → cap = len →
    ∃ u out, exec (.update len input cap) s = .next u ∧ u.response = some { status := .ok, out := out } ∧
      out.length = len.toNat ∧
      (∀ k (_ : k < len.toNat), out[k]? = some (input.getD k 0 ^^^
        kstream s.ctx.S s.ctx.MODE ((pos s.ctx.S s.ctx.MODE s.ctx.CUR + k) % (64 * wrapOf s.ctx.MODE)))) ∧
      pos u.ctx.S u.ctx.MODE u.ctx.CUR =
        (pos s.ctx.S s.ctx.MODE s.ctx.CUR + len.toNat) % (64 * wrapOf s.ctx.MODE) ∧
      (∀ j (_ : j < 12), u.ctx.S[j] = s.ctx.S[j]) ∧ u.ctx.MODE = s.ctx.MODE ∧
      (s.ctx.MODE = .block → u.ctx.S[14] = s.ctx.S[14] ∧ u.ctx.S[15] = s.ctx.S[15])

/-- 43_keystream_update.md section 3 (R171, which the spec derives): a message given in chunks, empty ones among them, comes out as it does
in one piece, and leaves the same S, MODE, KEYED and CUR, and the same KS whenever CUR < 64. -/
def Obligations.ChunksStreamLikeOneMessage : Prop :=
  ∀ (chunks : List (List Byte)) (s : State), s.ctx.KEYED = true → chunks.flatten.length < 2 ^ 64 →
    ∃ u v out, runUpdates chunks s = .next (u, out) ∧ exec (wholeUpdate chunks.flatten) s = .next v ∧ v.out = out ∧
      u.ctx.S = v.ctx.S ∧ u.ctx.MODE = v.ctx.MODE ∧ u.ctx.KEYED = v.ctx.KEYED ∧ u.ctx.CUR = v.ctx.CUR ∧
      (v.ctx.CUR.val < 64 → u.ctx.KS = v.ctx.KS)

/-- 43_keystream_update.md section 3 (R172, which the spec derives): two blocks given the same INIT and the same seek, whatever they held
before; what one makes of a message, the other turns back into it. -/
def Obligations.UpdateTwiceGivesTheMessageBack : Prop :=
  ∀ (key message : List Byte) (seek : Instr) (s t : State), key.length = 32 → Op.isSeek seek.op = true →
    message.length < 2 ^ 64 →
    ∃ u v w x, runUntilRejected [.init key, seek] s = .next u ∧ runUntilRejected [.init key, seek] t = .next v ∧
      exec (wholeUpdate message) u = .next w ∧ exec (wholeUpdate w.out) v = .next x ∧ x.out = message

/-- 43_keystream_update.md section 3 (R173, which the spec derives; 70 = 1·64 + 6 is one case): SEEK_OFFSET(N, 64·b + r) stands where
SEEK_BLOCK(N, b) and an UPDATE of r discarded bytes stand, and what follows comes out the same. -/
def Obligations.OffsetSeekIsBlockSeekAndDiscard : Prop :=
  ∀ (nonce blk offset : U64) (discarded message : List Byte) (s : State), s.ctx.KEYED = true →
    discarded.length < 64 → offset.toNat = 64 * blk.toNat + discarded.length → message.length < 2 ^ 64 →
    ∃ a b c d e, exec (.seekOffset nonce offset) s = .next a ∧ exec (wholeUpdate message) a = .next b ∧
      exec (.seekBlock nonce blk) s = .next c ∧ exec (wholeUpdate discarded) c = .next d ∧
      exec (wholeUpdate message) d = .next e ∧ b.out = e.out ∧ a.ctx = d.ctx ∧ b.ctx = e.ctx

/-- 20_memory.md section 2: output byte k depends on input byte k and on no other input byte. -/
def Obligations.OutputByteDependsOnItsInputByteOnly : Prop :=
  ∀ (a b : List Byte) (k : Nat) (s : State), s.ctx.KEYED = true → a.length = b.length → a.length < 2 ^ 64 →
    k < a.length → a[k]? = b[k]? →
    ∃ u v, exec (wholeUpdate a) s = .next u ∧ exec (wholeUpdate b) s = .next v ∧ u.out[k]? = v.out[k]? ∧ u.ctx = v.ctx

/-- 60_exceptions.md section 5 (R214; its last sentence rests on R170, which the spec derives): two instances given the same INIT key and a
SEEK_OFFSET to disjoint ranges, the second `gap` bytes after the first one's end, produce their parts of the stream: of one UPDATE of the
first message, `gap` bytes and the second message, the two outputs are the first and the last part. That instances are several States, which
share nothing, is notes/assumptions/11.md. -/
def Obligations.InstancesAtDisjointOffsetsMakeOneStream : Prop :=
  ∀ (key first gap second : List Byte) (nonce from1 from2 : U64) (s t w : State), key.length = 32 →
    from2.toNat = from1.toNat + first.length + gap.length → first.length + gap.length + second.length < 2 ^ 64 →
    ∃ a b c x y z between,
      runUntilRejected [.init key, .seekOffset nonce from1] s = .next a ∧ exec (wholeUpdate first) a = .next x ∧
      runUntilRejected [.init key, .seekOffset nonce from2] t = .next b ∧ exec (wholeUpdate second) b = .next y ∧
      runUntilRejected [.init key, .seekOffset nonce from1] w = .next c ∧
      exec (wholeUpdate (first ++ gap ++ second)) c = .next z ∧ between.length = gap.length ∧
      z.out = x.out ++ between ++ y.out

/-- 43_keystream_update.md section 3 (R168, which the spec derives): the keystream position after INIT and after each seek. -/
def Obligations.PositionAfterInitAndSeeks : Prop :=
  (∀ (key : List Byte) (s : State), key.length = 32 → ∃ u, exec (.init key) s = .next u ∧ u.ctx.pos = 0) ∧
  (∀ (nonce blk : U64) (s : State), s.ctx.KEYED = true →
    ∃ u, exec (.seekBlock nonce blk) s = .next u ∧ u.ctx.pos = 64 * blk.toNat) ∧
  (∀ (nonce offset : U64) (s : State), s.ctx.KEYED = true →
    ∃ u, exec (.seekOffset nonce offset) s = .next u ∧ u.ctx.pos = offset.toNat) ∧
  (∀ (v : Vector Byte 16) (s : State), s.ctx.KEYED = true →
    ∃ u, exec (.seekNonce v) s = .next u ∧ u.ctx.pos = 64 * (∑ k : Fin 16, 2 ^ (8 * k.val) * v[k].toNat) % 2 ^ 134)

/-! ### WIPE -/

/-- R190, R191, R192: WIPE whole: in every state it leaves the context all zero, STATUS = OK included, and answers OK with no byte. -/
def Obligations.WipeZeroesTheWholeContext : Prop :=
  (∀ f : Fields, decode { CMD := 0x00000006, fields := f } = .command .wipe) ∧ assembleWipe [] = .ok .wipe ∧
  ∀ s : State, ∃ u, exec .wipe s = .next u ∧
    (∀ j (_ : j < 16), u.ctx.S[j] = 0) ∧ (∀ k (_ : k < 64), u.ctx.KS[k] = 0) ∧ u.ctx.CUR.val = 0 ∧
    u.ctx.MODE = .block ∧ u.ctx.KEYED = false ∧ u.ctx.STATUS = .ok ∧ u.ctx = State.reset.ctx ∧
    u.response = some { status := .ok, out := [] } ∧ s.SamePort u

/-- 44_teardown.md (R190, R193): two blocks with any contexts and any last responses cannot be told apart, after WIPE, by their contexts or by
the response on their ports. That R193's promise about every storage element is one about all the state that the model holds, and that the
responses delivered before stay with the hosts, is notes/assumptions/12.md. -/
def Obligations.WipeLeavesNoTrace : Prop :=
  ∀ s t : State, ∃ u v, exec .wipe s = .next u ∧ exec .wipe t = .next v ∧ u.ctx = v.ctx ∧ u.response = v.response

/-- R194: after WIPE, KEYED = 0; while KEYED = 0 the seeks and UPDATE are rejected with NOT_KEYED, no transaction but an INIT with a 32-byte
key ends that, and INIT and WIPE are accepted. -/
def Obligations.OnlyInitAndWipeWorkAfterWipe : Prop :=
  (∀ s : State, ∃ u, exec .wipe s = .next u ∧ u.ctx.KEYED = false) ∧
  ∀ s : State, s.ctx.KEYED = false →
    (∀ i : Instr, Op.needsKey i.op = true → exec i s = .next { s with
      ctx := { s.ctx with STATUS := .notKeyed }, response := some { status := .notKeyed, out := [] } }) ∧
    (∀ (t : Transaction) (u : State), perform t s = .next u → u.ctx.KEYED = true →
      decodeOp t.CMD = some .init ∧ t.fields.KEY.length = 32) ∧
    (∀ key : List Byte, key.length = 32 → ∃ u, exec (.init key) s = .next u ∧ u.ctx.STATUS = .ok ∧ u.ctx.KEYED = true) ∧
    ∃ u, exec .wipe s = .next u ∧ u.ctx.STATUS = .ok

/-! ### Rules of the whole machine -/

/-- The invariant holds right after reset. -/
def Obligations.ResetMeetsTheInvariant : Prop := State.reset.Inv

/-- 10_state.md section 3 (R34 to R36) and 43_keystream_update.md section 3 (R167), which the spec derives: every step keeps the invariant. -/
def Obligations.StepKeepsTheInvariant : Prop :=
  ∀ s u : State, s.Inv → step s = .next u → u.Inv

/-- R201 to R203, R206: the status of every transaction is the first cause that applies, in the spec's order. -/
def Obligations.StatusFollowsThePriorityOfCauses : Prop :=
  ∀ (t : Transaction) (s : State), ∃ u, perform t s = .next u ∧ u.ctx.STATUS = expectedStatus s.ctx.KEYED t

/-- 60_exceptions.md section 2 (R207, which the spec derives): which command can raise which code. -/
def Obligations.EachCommandRaisesOnlyItsCodes : Prop :=
  ∀ (i : Instr) (s u : State), exec i s = .next u →
    u.ctx.STATUS ≠ .illegalCommand ∧
    (u.ctx.STATUS = .notKeyed → Op.needsKey i.op = true ∧ s.ctx.KEYED = false) ∧
    (u.ctx.STATUS = .invalidArgument → i.op = .init ∨ (i.op = .update ∧ s.ctx.KEYED = true)) ∧
    (i.op = .wipe → u.ctx.STATUS = .ok)

/-- R204: a rejected command writes its code to STATUS, returns an empty OUT, and changes nothing else at all. -/
def Obligations.RejectionIsPrecise : Prop :=
  ∀ (t : Transaction) (s u : State), perform t s = .next u → u.ctx.STATUS ≠ .ok →
    u = { s with ctx := { s.ctx with STATUS := u.ctx.STATUS }, response := some { status := u.ctx.STATUS, out := [] } }

/-- R31, R87: every command writes STATUS, with 0 when it completes or with its rejection code, and answers with that same 2-bit code; OUT is
empty for every one but an UPDATE that completes, where it has exactly LEN bytes. No command touches the port's queues, its reset input or
what has been delivered. -/
def Obligations.EveryCommandAnswersWithItsStatus : Prop :=
  (statusCode .ok = 0 ∧ statusCode .invalidArgument = 1 ∧ statusCode .notKeyed = 2 ∧ statusCode .illegalCommand = 3) ∧
  ∀ (t : Transaction) (s : State), ∃ u r, perform t s = .next u ∧ u.response = some r ∧
    u.ctx.STATUS = expectedStatus s.ctx.KEYED t ∧ r.status = u.ctx.STATUS ∧
    (r.out ≠ [] → decodeOp t.CMD = some .update ∧ r.status = .ok) ∧
    (decodeOp t.CMD = some .update → r.status = .ok → r.out.length = t.fields.LEN.toNat) ∧ s.SamePort u

/-- 10_state.md section 1 (R23, R24, R30): INIT and WIPE are the only commands that write S[0..11], and the only ones that write KEYED. -/
def Obligations.OnlyInitAndWipeWriteTheKey : Prop :=
  ∀ (t : Transaction) (s u : State), decodeOp t.CMD ≠ some .init → decodeOp t.CMD ≠ some .wipe → perform t s = .next u →
    (∀ j (_ : j < 12), u.ctx.S[j] = s.ctx.S[j]) ∧ u.ctx.KEYED = s.ctx.KEYED

/-- 10_state.md section 1 (R29, R30): MODE after a command that completes: INIT, SEEK_BLOCK, SEEK_OFFSET and WIPE write 0, SEEK_NONCE writes 1,
UPDATE leaves it; INIT writes KEYED = 1 and WIPE KEYED = 0. -/
def Obligations.WritersOfModeAndKeyed : Prop :=
  ∀ (i : Instr) (s u : State), exec i s = .next u → u.ctx.STATUS = .ok →
    (i.op = .init → u.ctx.MODE = .block ∧ u.ctx.KEYED = true) ∧
    (i.op = .seekBlock ∨ i.op = .seekOffset → u.ctx.MODE = .block ∧ u.ctx.KEYED = true) ∧
    (i.op = .seekNonce → u.ctx.MODE = .nonce128 ∧ u.ctx.KEYED = true) ∧
    (i.op = .wipe → u.ctx.MODE = .block ∧ u.ctx.KEYED = false) ∧
    (i.op = .update → u.ctx.MODE = s.ctx.MODE ∧ u.ctx.KEYED = true)

/-- 20_memory.md section 3 (R58, which the spec derives): every command but UPDATE, given twice in a row, leaves the context and the answer
of the first. -/
def Obligations.CommandsButUpdateAreIdempotent : Prop :=
  ∀ (i : Instr) (s u : State), i.op ≠ .update → exec i s = .next u →
    ∃ v, exec i u = .next v ∧ v.ctx = u.ctx ∧ v.response = u.response

/-- 10_state.md section 2 and 60_exceptions.md section 4 (R33, R212): what a host can see tells it nothing of S, KS, CUR or MODE but an UPDATE's own output bytes: on two blocks that agree in KEYED
alone, every command gives the same status and as many output bytes, and every command but UPDATE the same whole answer. -/
def Obligations.ResponsesDoNotShowTheContext : Prop :=
  ∀ (t : Transaction) (s v : State), s.ctx.KEYED = v.ctx.KEYED →
    ∃ u w, perform t s = .next u ∧ perform t v = .next w ∧ u.ctx.STATUS = w.ctx.STATUS ∧
      u.out.length = w.out.length ∧ (decodeOp t.CMD ≠ some .update → u.response = w.response) ∧
      u.ctx.KEYED = w.ctx.KEYED

/-- R86: what a one-shot form comes to. With a 32-byte key its INIT, its seek, its UPDATE and its WIPE run one after another, its status is OK
and its bytes are the UPDATE's; with any other key INIT is rejected, the WIPE alone follows, the status is INIT's and there is no byte.
Either way the block is left wiped, and what is returned does not depend on what the block held before. -/
def Obligations.OneShotFormsWipeAndAreIndependent : Prop :=
  ∀ (o : OneShot) (key input : List Byte) (n p : U64) (seek : Instr) (s t : State),
    (o = .cryptBlock key n p input ∧ seek = .seekBlock n p) ∨ (o = .cryptOffset key n p input ∧ seek = .seekOffset n p) →
    input.length < 2 ^ 64 →
    ∃ r q, o.run s = .next r ∧ o.run t = .next q ∧ r.block.ctx = State.reset.ctx ∧ r.status = q.status ∧ r.out = q.out ∧
      (key.length = 32 → ∃ a b c, exec (.init key) s = .next a ∧ exec seek a = .next b ∧
        exec (.update (BitVec.ofNat 64 input.length) input (BitVec.ofNat 64 input.length)) b = .next c ∧
        exec .wipe c = .next r.block ∧ r.status = .ok ∧ r.out = c.out ∧ r.out.length = input.length) ∧
      (key.length ≠ 32 → ∃ a, exec (.init key) s = .next a ∧ exec .wipe a = .next r.block ∧
        r.status = .invalidArgument ∧ r.out = [])

/-- 30_encoding.md section 6 and 43_keystream_update.md section 3 (R172, which the spec derives): a one-shot form applied to its own output with the same key, nonce and position returns the first input. -/
def Obligations.OneShotFormsInvertThemselves : Prop :=
  ∀ (key input : List Byte) (n p : U64) (s t : State), key.length = 32 → input.length < 2 ^ 64 →
    (∃ r q, (OneShot.cryptBlock key n p input).run s = .next r ∧
      (OneShot.cryptBlock key n p r.out).run t = .next q ∧ q.out = input) ∧
    (∃ r q, (OneShot.cryptOffset key n p input).run s = .next r ∧
      (OneShot.cryptOffset key n p r.out).run t = .next q ∧ q.out = input)

/-! ### The assembly syntax -/

/-- R85: a number written in decimal or in hexadecimal is that number, unsigned, when it fits in 64 bits, and is refused when it does not. -/
def Obligations.AssemblerRefusesNumbersPastSixtyFourBits : Prop :=
  (∀ (c : Char) (ds : List Char) (n : Nat), digitsValue hexDigit 16 0 (c :: ds) = some n →
    (n < 2 ^ 64 → ∃ v : U64, parseNumber ('0' :: 'x' :: c :: ds) = .ok v ∧ v.toNat = n) ∧
    (2 ^ 64 ≤ n → parseNumber ('0' :: 'x' :: c :: ds) = .error .numberTooWide)) ∧
  (∀ (ds : List Char) (n : Nat), ds ≠ [] → digitsValue decimalDigit 10 0 ds = some n →
    (n < 2 ^ 64 → ∃ v : U64, parseNumber ds = .ok v ∧ v.toNat = n) ∧
    (2 ^ 64 ≤ n → parseNumber ds = .error .numberTooWide))

/-- 30_encoding.md section 5 (R82, R83): each command's line gives its word and puts each operand in the field of the same name, for every text that `parseValue` reads as
the operand's value (which blanks it may hold is notes/assumptions/7.md) and every spelling of the mnemonic in upper and lower case; UPDATE
may leave out len, outcap or both, and each is then |in|; a SEEK_NONCE whose nonce is not 16 bytes is refused; a KEY, IN, LEN or OUT_CAP of
any value is passed on. The mnemonic's case is R82's. -/
def Obligations.AssemblerDefaultsAndRefusals : Prop :=
  ∀ (bytes nonce16 num1 num2 : List Char) (b : List Byte) (v : Vector Byte 16) (m n : U64),
    parseValue bytes = .ok (.bytes b) → parseValue nonce16 = .ok (.bytes v.toList) →
    parseValue num1 = .ok (.number m) → parseValue num2 = .ok (.number n) →
    (∀ init, lower init = "init".toList → assemble (init ++ " key=".toList ++ bytes) =
      .ok (.command { CMD := 0x00000001, fields := { Fields.none with KEY := b } })) ∧
    (∀ seekNonce, lower seekNonce = "seek_nonce".toList →
      assemble (seekNonce ++ " nonce=".toList ++ nonce16) =
        .ok (.command { CMD := 0x00000002, fields := { Fields.none with NONCE16 := v } }) ∧
      (b.length ≠ 16 → assemble (seekNonce ++ " nonce=".toList ++ bytes) = .error .nonceLength)) ∧
    (∀ seekBlock, lower seekBlock = "seek_block".toList →
      assemble (seekBlock ++ " nonce=".toList ++ num1 ++ ", block=".toList ++ num2) =
        .ok (.command { CMD := 0x00000003, fields := { Fields.none with NONCE64 := m, BLOCK64 := n } })) ∧
    (∀ seekOffset, lower seekOffset = "seek_offset".toList →
      assemble (seekOffset ++ " nonce=".toList ++ num1 ++ ", offset=".toList ++ num2) =
        .ok (.command { CMD := 0x00000004, fields := { Fields.none with NONCE64 := m, OFFSET64 := n } })) ∧
    (∀ update, lower update = "update".toList →
      assemble (update ++ " len=".toList ++ num1 ++ ", in=".toList ++ bytes ++ ", outcap=".toList ++ num2) =
        .ok (.command { CMD := 0x00000005, fields := { Fields.none with LEN := m, IN := b, OUT_CAP := n } }) ∧
      ∀ size : U64, size.toNat = b.length →
        assemble (update ++ " in=".toList ++ bytes) =
          .ok (.command { CMD := 0x00000005, fields := { Fields.none with LEN := size, IN := b, OUT_CAP := size } }) ∧
        assemble (update ++ " len=".toList ++ num1 ++ ", in=".toList ++ bytes) =
          .ok (.command { CMD := 0x00000005, fields := { Fields.none with LEN := m, IN := b, OUT_CAP := size } }) ∧
        assemble (update ++ " in=".toList ++ bytes ++ ", outcap=".toList ++ num2) =
          .ok (.command { CMD := 0x00000005, fields := { Fields.none with LEN := size, IN := b, OUT_CAP := n } })) ∧
    (∀ wipe, lower wipe = "wipe".toList →
      assemble wipe = .ok (.command { CMD := 0x00000006, fields := Fields.none }))

/-- 30_encoding.md section 5 (R82 to R84): a raw word stands for its mnemonic: the word of a command, with whatever stands behind it on the
line (operands, right or wrong, a comment, nothing), comes to what the command's mnemonic with the same comes to, its defaults and refusals
included. A raw word of eight digits that is illegal gives a transaction with that very word, if its operands are taken at all, and does give
it with none; so does one of a command when it gives any. Which operands an illegal word may carry, and where blanks may stand, is
notes/assumptions/7.md. -/
def Obligations.RawWordStandsForItsMnemonic : Prop :=
  (∀ p ∈ [("INIT", "0x00000001"), ("SEEK_NONCE", "0x00000002"), ("SEEK_BLOCK", "0x00000003"), ("SEEK_OFFSET", "0x00000004"),
      ("UPDATE", "0x00000005"), ("WIPE", "0x00000006")], ∀ rest : List Char, rest.head?.all isBlank = true →
    assemble (".word ".toList ++ p.2.toList ++ rest) = assemble (p.1.toList ++ rest)) ∧
  (∀ (digits rest : List Char) (n : Nat), digits.length = 8 → digitsValue hexDigit 16 0 digits = some n →
    rest.head?.all isBlank = true →
    (∀ l, assemble (".word 0x".toList ++ digits ++ rest) = .ok l →
      ∃ f, l = .command { CMD := BitVec.ofNat 32 n, fields := f }) ∧
    ((∀ op, decodeOp (BitVec.ofNat 32 n) ≠ some op) → assemble (".word 0x".toList ++ digits) =
      .ok (.command { CMD := BitVec.ofNat 32 n, fields := Fields.none })))
end

