-- ==== Sys2Proof/Laws/Decode.lean ====
section
/-! SUPPORT. What the decoder reads (30_encoding.md R72, R73): a word decodes to a command exactly when it is that command's one word. -/

namespace Sys2Proof.Machine

theorem decode_of_op {t : Transaction} {op : Op} (h : decodeOp t.CMD = some op) :
    decode t = .command (selectOperands t.fields op) := by
  simp [decode, h]

theorem decode_of_none {t : Transaction} (h : decodeOp t.CMD = none) : decode t = .rejected .illegalCommand := by
  simp [decode, h]

/-- A word names a command exactly when it is that command's one legal word (R73). -/
theorem decodeOp_iff (w : Word) (op : Op) : decodeOp w = some op ↔ w = commandWord op := by
  have hr : (rsvdField w).toNat = w.toNat / 16 := by
    have := w.isLt
    simp only [rsvdField, BitVec.extractLsb'_toNat, Nat.shiftRight_eq_div_pow]; omega
  have ho : (opField w).toNat = w.toNat % 16 := by
    simp [opField, BitVec.extractLsb'_toNat]
  have hz : rsvdField w = 0 ↔ w.toNat / 16 = 0 := by
    rw [← BitVec.toNat_inj, hr]; simp
  unfold decodeOp opOfField
  rw [← BitVec.toNat_inj (x := w), ho]
  constructor
  · intro h
    split at h
    · rename_i h0
      rw [hz] at h0
      split at h <;> cases h <;> simp [commandWord, opCode] <;> omega
    · cases h
  · intro h
    cases op <;> simp [commandWord, opCode] at h <;> rw [if_pos (by rw [hz]; omega), h] <;> rfl

/-- Everything a transaction that decodes can be. -/
theorem decode_command_iff (t : Transaction) (i : Instr) :
    decode t = .command i ↔ ∃ op, t.CMD = commandWord op ∧ selectOperands t.fields op = i := by
  unfold decode
  cases h : decodeOp t.CMD with
  | none =>
    simp only [reduceCtorEq, false_iff, not_exists, not_and]
    intro op hop
    rw [(decodeOp_iff _ _).mpr hop] at h; cases h
  | some op =>
    have := (decodeOp_iff _ _).mp h
    constructor
    · intro e; cases e; exact ⟨op, this, rfl⟩
    · rintro ⟨op', h', rfl⟩
      rw [(decodeOp_iff _ _).mpr h'] at h; cases h; rfl

/-- A legal word's reserved field is zero (R73). -/
theorem rsvdField_commandWord (op : Op) : rsvdField (commandWord op) = 0 := by cases op <;> rfl

end Sys2Proof.Machine
end

