-- ==== Sys2Proof/Laws/Assembler.lean ====
section
/-! SUPPORT. Reading a line of the assembly syntax (30_encoding.md R82, R83): its parts, a written value, an operand, the whole line. -/

namespace Sys2Proof.Machine

/-! ### The parts of a text -/

theorem splitAtChar_of_not_mem {sep : Char} {l : List Char} (h : sep ∉ l) : splitAtChar sep l = [l] := by
  induction l with
  | nil => rfl
  | cons c cs ih =>
    have hc : c ≠ sep := fun e => h (e ▸ List.mem_cons_self)
    simp [splitAtChar, hc, ih fun hm => h (List.mem_cons_of_mem _ hm)]

theorem splitAtChar_append {sep : Char} {l : List Char} (h : sep ∉ l) (r : List Char) :
    splitAtChar sep (l ++ sep :: r) = l :: splitAtChar sep r := by
  induction l with
  | nil => simp [splitAtChar]
  | cons c cs ih =>
    have hc : c ≠ sep := fun e => h (e ▸ List.mem_cons_self)
    simp [splitAtChar, hc, ih fun hm => h (List.mem_cons_of_mem _ hm)]

/-- A text that neither begins nor ends with a blank. -/
def Trimmed (l : List Char) : Prop := trimLeft l = l ∧ trimLeft l.reverse = l.reverse

theorem trim_of_trimmed {l : List Char} (h : Trimmed l) : trim l = l := by
  simp only [trim, h.1, h.2, List.reverse_reverse]

theorem trimLeft_cons {c : Char} (h : isBlank c = false) (l : List Char) : trimLeft (c :: l) = c :: l := by
  simp [trimLeft, h]

theorem trimLeft_append {l : List Char} (h : trimLeft l = l) (h0 : l ≠ []) (r : List Char) : trimLeft (l ++ r) = l ++ r := by
  cases l with
  | nil => exact absurd rfl h0
  | cons c cs =>
    cases hc : isBlank c with
    | false => exact trimLeft_cons hc _
    | true =>
      have := congrArg List.length h
      have hl := (List.dropWhile_sublist isBlank (l := cs)).length_le
      simp [trimLeft, hc] at this
      omega

/-- A text with trimmed ends is trimmed, whatever stands between them. -/
theorem trimmed_append {l m r : List Char} (hl : Trimmed l) (hr : Trimmed r) (hl0 : l ≠ []) (hr0 : r ≠ []) :
    Trimmed (l ++ m ++ r) := by
  constructor
  · rw [List.append_assoc]; exact trimLeft_append hl.1 hl0 _
  · rw [List.reverse_append]; exact trimLeft_append hr.2 (by simpa using hr0) _

theorem mem_trim {c : Char} {l : List Char} (hc : c ∈ l) (hb : isBlank c = false) : c ∈ trim l := by
  have key : ∀ l : List Char, c ∈ l → c ∈ trimLeft l := by
    intro l
    induction l with
    | nil => exact id
    | cons a as ih =>
      intro h
      cases ha : isBlank a with
      | false => rw [trimLeft_cons ha]; exact h
      | true =>
        have hne : c ≠ a := by rintro rfl; rw [hb] at ha; cases ha
        simpa [trimLeft, ha] using ih ((List.mem_cons.mp h).resolve_left hne)
  exact List.mem_reverse.mpr (key _ (List.mem_reverse.mpr (key l hc)))

theorem trimmed_of_no_blank {l : List Char} (h : ∀ c ∈ l, isBlank c = false) : Trimmed l := by
  have key : ∀ l : List Char, (∀ c ∈ l, isBlank c = false) → trimLeft l = l := by
    intro l h
    cases l with
    | nil => rfl
    | cons c cs => exact trimLeft_cons (h c List.mem_cons_self) _
  exact ⟨key l h, key _ fun c hc => h c (List.mem_reverse.mp hc)⟩

/-! ### A written value -/

/-- A character that no name, value or mnemonic holds, since it parts them. -/
def isSeparator (c : Char) : Bool := c = ',' || c = '=' || c = ';'

/-- A text that stands on a line as one piece: it holds no separator and has no blank at either end. -/
structure OnePiece (l : List Char) : Prop where
  clean   : ∀ c ∈ l, isSeparator c = false
  trimmed : Trimmed l
  ne_nil  : l ≠ []

theorem not_mem_of_clean {l : List Char} (h : ∀ c ∈ l, isSeparator c = false) {c : Char} (hc : isSeparator c = true) : c ∉ l := by
  intro hm; rw [h c hm] at hc; cases hc

theorem onePiece_of_no_blank {l : List Char} (h : ∀ c ∈ l, isSeparator c = false ∧ isBlank c = false) (h0 : l ≠ []) : OnePiece l :=
  ⟨fun c hc => (h c hc).1, trimmed_of_no_blank fun c hc => (h c hc).2, h0⟩

theorem blank_clean {c : Char} (h : isBlank c = true) : isSeparator c = false := by
  simp only [isBlank, Bool.or_eq_true, decide_eq_true_eq] at h
  rcases h with rfl | rfl <;> decide

/-- A digit is neither a separator nor a blank. -/
theorem hexDigit_clean {c : Char} {d : Nat} (h : hexDigit c = some d) : isSeparator c = false ∧ isBlank c = false := by
  constructor <;> refine Bool.eq_false_iff.mpr fun hs => ?_ <;>
    simp only [isSeparator, isBlank, Bool.or_eq_true, decide_eq_true_eq] at hs
  · rcases hs with (rfl | rfl) | rfl <;> exact absurd h (by decide +revert)
  · rcases hs with rfl | rfl <;> exact absurd h (by decide +revert)

theorem decimalDigit_clean {c : Char} {d : Nat} (h : decimalDigit c = some d) : isSeparator c = false ∧ isBlank c = false :=
  hexDigit_clean (d := d) (by simp only [hexDigit, h])

theorem digitsValue_clean {digit : Char → Option Nat} {base acc n : Nat} {cs : List Char}
    (hd : ∀ c d, digit c = some d → isSeparator c = false ∧ isBlank c = false) (h : digitsValue digit base acc cs = some n) :
    ∀ c ∈ cs, isSeparator c = false ∧ isBlank c = false := by
  induction cs generalizing acc with
  | nil => simp
  | cons c cs ih =>
    rw [digitsValue] at h
    split at h
    · rename_i d hc
      exact List.forall_mem_cons.mpr ⟨hd c d hc, ih h⟩
    · cases h

theorem parseNumber_clean {cs : List Char} {v : U64} (h : parseNumber cs = .ok v) :
    (∀ c ∈ cs, isSeparator c = false ∧ isBlank c = false) ∧ cs ≠ [] := by
  unfold parseNumber at h
  simp only at h
  split at h
  · cases h
  · rename_i n hn
    split at hn
    · refine ⟨?_, by simp⟩
      exact List.forall_mem_cons.mpr ⟨by decide, List.forall_mem_cons.mpr ⟨by decide, digitsValue_clean (fun _ _ => hexDigit_clean) hn⟩⟩
    · exact ⟨digitsValue_clean (fun _ _ => decimalDigit_clean) hn, by simp⟩
    · cases hn

theorem parseHexPairs_clean {cs : List Char} {b : List Byte} (h : parseHexPairs cs = .ok b) :
    ∀ c ∈ cs, isSeparator c = false ∧ isBlank c = false := by
  induction cs using parseHexPairs.induct generalizing b with
  | case1 => simp; decide
  | case2 a b' cs hne =>
    rename_i ih
    rw [parseHexPairs] at h
    split at h
    · rename_i ha hb hc
      exact List.forall_mem_cons.mpr ⟨hexDigit_clean ha, List.forall_mem_cons.mpr ⟨hexDigit_clean hb, ih hc⟩⟩
    · cases h
  | _ => simp_all [parseHexPairs]

/-- `zero(` or `seq(` with its count. -/
theorem parseCount_onePiece {pre cs : List Char} {n : Nat} (hp : ∀ c ∈ pre, isSeparator c = false ∧ isBlank c = false) (h0 : pre ≠ [])
    (h : parseCount cs = .ok n) : OnePiece (pre ++ cs) := by
  unfold parseCount at h
  split at h
  · rename_i ds hr
    have hcs : cs = ds.reverse ++ [')'] := by rw [← List.reverse_reverse cs, hr, List.reverse_cons]
    split at h
    · rename_i v hv
      subst hcs
      refine ⟨?_, ?_, by simp [h0]⟩
      · intro c hc
        simp only [List.mem_append, List.mem_singleton] at hc
        rcases hc with hc | hc | rfl
        · exact (hp c hc).1
        · cases hb : isBlank c with
          | true => exact blank_clean hb
          | false => exact ((parseNumber_clean hv).1 c (mem_trim hc hb)).1
        · decide
      · rw [← List.append_assoc]
        exact trimmed_append (trimmed_of_no_blank fun c hc => (hp c hc).2) ⟨rfl, rfl⟩ h0 (by simp)
    · cases h
  · cases h

/-- Whatever text writes a value, it stands on a line as one piece. -/
theorem parseValue_onePiece {cs : List Char} {v : AsmValue} (h : parseValue cs = .ok v) : OnePiece cs := by
  have ok_of_map : ∀ {α β : Type} {f : α → β} {x : Except AsmError α} {y : β}, x.map f = .ok y → ∃ a, x = .ok a := by
    intro α β f x y hx
    cases x with
    | error e => cases hx
    | ok a => exact ⟨a, rfl⟩
  unfold parseValue at h
  split at h <;> obtain ⟨w, hw⟩ := ok_of_map h
  · exact onePiece_of_no_blank (List.forall_mem_cons.mpr ⟨by decide, parseHexPairs_clean hw⟩) (by simp)
  · exact parseCount_onePiece (pre := ['z', 'e', 'r', 'o', '(']) (by simp [isSeparator, isBlank]) (by simp) hw
  · exact parseCount_onePiece (pre := ['s', 'e', 'q', '(']) (by simp [isSeparator, isBlank]) (by simp) hw
  · exact onePiece_of_no_blank (parseNumber_clean hw).1 (parseNumber_clean hw).2

/-! ### Operands and lines -/

/-- An operand, with blanks before its name or none. -/
theorem parseOperand_written {pre text : List Char} {v : AsmValue} (hp : '=' ∉ pre) (h : parseValue text = .ok v) :
    parseOperand (pre ++ '=' :: text) = .ok (lower (trim pre), v) := by
  have ho := parseValue_onePiece h
  unfold parseOperand
  rw [splitAtChar_append hp, splitAtChar_of_not_mem (not_mem_of_clean ho.clean (by decide))]
  simp only [trim_of_trimmed ho.trimmed, h]

/-- The operands of a line, read one by one: one with others behind it, and the last. -/
theorem readOperands_cons {pre text rest : List Char} {v : AsmValue} (hp : '=' ∉ pre ∧ ',' ∉ pre) (h : parseValue text = .ok v) :
    (splitAtChar ',' (pre ++ '=' :: (text ++ ',' :: rest))).mapM parseOperand =
      ((splitAtChar ',' rest).mapM parseOperand).map ((lower (trim pre), v) :: ·) := by
  have hc : ',' ∉ pre ++ '=' :: text := by
    have := not_mem_of_clean (parseValue_onePiece h).clean (c := ',') (by decide)
    simp [hp.2, this]
  rw [show pre ++ '=' :: (text ++ ',' :: rest) = (pre ++ '=' :: text) ++ ',' :: rest by simp, splitAtChar_append hc, List.mapM_cons,
    parseOperand_written hp.1 h]
  cases (splitAtChar ',' rest).mapM parseOperand <;> rfl

theorem readOperands_last {pre text : List Char} {v : AsmValue} (hp : '=' ∉ pre ∧ ',' ∉ pre) (h : parseValue text = .ok v) :
    (splitAtChar ',' (pre ++ '=' :: text)).mapM parseOperand = .ok [(lower (trim pre), v)] := by
  have hc : ',' ∉ pre ++ '=' :: text := by
    have := not_mem_of_clean (parseValue_onePiece h).clean (c := ',') (by decide)
    simp [hp.2, this]
  rw [splitAtChar_of_not_mem hc, List.mapM_cons, parseOperand_written hp.1 h]
  rfl

/-- A text with an operand in it is read operand by operand. -/
theorem parseOperands_eq {cs : List Char} (h : '=' ∈ cs) : parseOperands cs = (splitAtChar ',' cs).mapM parseOperand :=
  if_neg (List.ne_nil_of_mem (mem_trim h (by decide)))

/-- A written value holds no semicolon, so no comment begins in it. -/
theorem no_comment {cs : List Char} {v : AsmValue} (h : parseValue cs = .ok v) : ';' ∉ cs :=
  not_mem_of_clean (parseValue_onePiece h).clean (by decide)

/-- A spelling of a mnemonic in any case holds no separator and no blank. -/
theorem clean_of_lower {mn l : List Char} (h : lower mn = l) (hl : ∀ c ∈ l, isSeparator c = false ∧ isBlank c = false) :
    ∀ c ∈ mn, isSeparator c = false ∧ isBlank c = false := by
  intro c hc
  have hm := hl c.toLower (by rw [← h]; exact List.mem_map_of_mem hc)
  constructor <;> refine Bool.eq_false_iff.mpr fun hs => ?_ <;>
    simp only [isSeparator, isBlank, Bool.or_eq_true, decide_eq_true_eq] at hs
  · rcases hs with (rfl | rfl) | rfl <;> exact absurd hm.1 (by decide)
  · rcases hs with rfl | rfl <;> exact absurd hm.2 (by decide)

theorem takeWhile_all {p : Char → Bool} {l : List Char} (h : ∀ c ∈ l, p c = true) : l.takeWhile p = l :=
  List.takeWhile_eq_self_iff.mpr h

/-- A line of a mnemonic and something behind it, with no comment. -/
theorem assemble_line {mn mid last : List Char} (hmn : ∀ c ∈ mn, isSeparator c = false ∧ isBlank c = false) (h0 : mn ≠ [])
    (hmid : ';' ∉ mid) (hlast : OnePiece last) :
    assemble (mn ++ ' ' :: (mid ++ last)) = assembleMnemonic (lower mn) (' ' :: (mid ++ last)) := by
  have hl := not_mem_of_clean hlast.clean (c := ';') (by decide)
  have hm := not_mem_of_clean (fun c hc => (hmn c hc).1) (c := ';') (by decide)
  have h1 : (mn ++ ' ' :: (mid ++ last)).takeWhile (fun c => decide (c ≠ ';')) = mn ++ ' ' :: (mid ++ last) := by
    apply takeWhile_all
    intro c hc
    rw [decide_eq_true_eq]
    rintro rfl
    simp [hl, hm, hmid] at hc
  have h2 : trim (mn ++ ' ' :: (mid ++ last)) = mn ++ ' ' :: (mid ++ last) := by
    have := trimmed_append (m := ' ' :: mid) (trimmed_of_no_blank fun c hc => (hmn c hc).2) hlast.trimmed h0 hlast.ne_nil
    simpa using trim_of_trimmed this
  have hb : ∀ c ∈ mn, (!isBlank c) = true := fun c hc => by simp [(hmn c hc).2]
  unfold assemble
  simp only [h1, h2]
  rw [List.takeWhile_append_of_pos hb, List.dropWhile_append_of_pos hb]
  simp [isBlank]

/-- A line whose mnemonic is spelled in any case and whose last operand writes a value. -/
theorem assemble_written {mn name mid last : List Char} {v : AsmValue} (hn : lower mn = name) (h0 : name ≠ [])
    (hc : ∀ c ∈ name, isSeparator c = false ∧ isBlank c = false) (hmid : ';' ∉ mid) (hv : parseValue last = .ok v) :
    assemble (mn ++ ' ' :: (mid ++ last)) = assembleMnemonic name (' ' :: (mid ++ last)) := by
  rw [assemble_line (clean_of_lower hn hc) (by rintro rfl; exact h0 hn.symm) hmid (parseValue_onePiece hv), hn]

/-- A line of a mnemonic alone. -/
theorem assemble_mnemonic {mn : List Char} (hmn : ∀ c ∈ mn, isSeparator c = false ∧ isBlank c = false) :
    assemble mn = assembleMnemonic (lower mn) [] := by
  have hm := not_mem_of_clean (fun c hc => (hmn c hc).1) (c := ';') (by decide)
  have h1 : mn.takeWhile (fun c => decide (c ≠ ';')) = mn := by
    apply takeWhile_all
    intro c hc
    rw [decide_eq_true_eq]
    rintro rfl
    exact hm hc
  have hb : ∀ c ∈ mn, (!isBlank c) = true := fun c hc => by simp [(hmn c hc).2]
  unfold assemble
  simp only [h1, trim_of_trimmed (trimmed_of_no_blank fun c hc => (hmn c hc).2), takeWhile_all hb]
  rw [show mn.dropWhile (fun c => !isBlank c) = [] from by simpa using fun c hc => (hmn c hc).2]

/-! ### Raw words (R84) -/

/-- Every command's syntax gives that command. -/
theorem assembleOp_op {op : Op} {ops : Operands} {i : Instr} (h : assembleOp op ops = .ok i) : i.op = op := by
  have bind_ok : ∀ {α β : Type} {x : Except AsmError α} {f : α → Except AsmError β} {y : β}, (x >>= f) = .ok y → ∃ a, f a = .ok y := by
    intro α β x f y hx
    cases x with
    | error e => cases hx
    | ok a => exact ⟨a, hx⟩
  cases op <;> simp only [assembleOp, assembleInit, assembleSeekNonce, assembleSeekBlock, assembleSeekOffset, assembleUpdate,
    assembleWipe] at h <;> repeat (first | (cases h; rfl) | (replace h := bind_ok h; obtain ⟨_, h⟩ := h))

/-- The word of a command takes that command's operands. -/
theorem assembleRaw_command (op : Op) (ops : Operands) : assembleRaw (commandWord op) ops = (assembleOp op ops).map encode := by
  simp only [assembleRaw, (decodeOp_iff _ _).mpr rfl]

theorem assembleRaw_illegal {w : Word} (h : decodeOp w = none) (ops : Operands) :
    assembleRaw w ops = (illegalFields ops).map fun f => { CMD := w, fields := f } := by
  simp only [assembleRaw, h]

/-- A raw word is the command word of whatever it assembles to. -/
theorem assembleRaw_CMD {w : Word} {ops : Operands} {t : Transaction} (h : assembleRaw w ops = .ok t) : t.CMD = w := by
  cases hd : decodeOp w with
  | none =>
    rw [assembleRaw_illegal hd] at h
    cases hf : illegalFields ops with
    | error e => rw [hf] at h; cases h
    | ok f => rw [hf] at h; cases h; rfl
  | some op =>
    obtain rfl := (decodeOp_iff _ _).mp hd
    rw [assembleRaw_command] at h
    cases ho : assembleOp op ops with
    | error e => rw [ho] at h; cases h
    | ok i => rw [ho] at h; cases h; rw [encode, assembleOp_op ho]

/-- What is read of the end of a line: all up to a comment and the blanks before it. -/
def lineEnd (r : List Char) : List Char := (trimLeft (r.takeWhile fun c => c ≠ ';').reverse).reverse

/-- A text that is empty or begins with a blank. -/
def Parted (r : List Char) : Prop := r.head?.all isBlank = true

theorem parted_of_prefix {a b : List Char} (h : a <+: b) (hb : Parted b) : Parted a := by
  obtain ⟨c, rfl⟩ := h
  cases a with
  | nil => rfl
  | cons x xs => exact hb

theorem parted_lineEnd {r : List Char} (h : Parted r) : Parted (lineEnd r) := by
  refine parted_of_prefix ?_ (parted_of_prefix (List.takeWhile_prefix fun c => decide (c ≠ ';')) h)
  have := List.dropWhile_suffix isBlank (l := (r.takeWhile fun c => decide (c ≠ ';')).reverse)
  have h2 := List.reverse_prefix.mpr this
  rwa [List.reverse_reverse] at h2

/-- A line that begins with a trimmed text is that text with what is read of the rest. -/
theorem assemble_append {p : List Char} (hp : Trimmed p) (h0 : p ≠ []) (hc : ';' ∉ p) (r : List Char) :
    assemble (p ++ r) = assembleMnemonic (lower ((p ++ lineEnd r).takeWhile fun c => !isBlank c))
      ((p ++ lineEnd r).dropWhile fun c => !isBlank c) := by
  have h1 : (p ++ r).takeWhile (fun c => decide (c ≠ ';')) = p ++ r.takeWhile fun c => decide (c ≠ ';') :=
    List.takeWhile_append_of_pos fun c hm => by rw [decide_eq_true_eq]; rintro rfl; exact hc hm
  have h2 : ∀ a b : List Char, trimLeft b = b → b ≠ [] → trimLeft (a ++ b) = trimLeft a ++ b := by
    intro a b hb hb0
    induction a with
    | nil => simpa [trimLeft] using hb
    | cons x xs ih =>
      cases hx : isBlank x with
      | false => rw [trimLeft_cons hx, List.cons_append, trimLeft_cons hx]
      | true => simpa [trimLeft, hx] using ih
  have h3 : trim (p ++ r.takeWhile fun c => decide (c ≠ ';')) = p ++ lineEnd r := by
    unfold trim lineEnd
    rw [trimLeft_append hp.1 h0, List.reverse_append, h2 _ _ hp.2 (by simpa using h0), List.reverse_append, List.reverse_reverse]
  simp only [assemble, h1, h3]

/-- A mnemonic with what is behind it. -/
theorem assemble_parted {mn r : List Char} (hmn : ∀ c ∈ mn, isSeparator c = false ∧ isBlank c = false) (h0 : mn ≠ [])
    (hr : Parted r) : assemble (mn ++ r) = assembleMnemonic (lower mn) (lineEnd r) := by
  have hb : ∀ c ∈ mn, (!isBlank c) = true := fun c hc => by simp [(hmn c hc).2]
  have hl := parted_lineEnd hr
  rw [assemble_append (trimmed_of_no_blank fun c hc => (hmn c hc).2) h0
    (not_mem_of_clean (fun c hc => (hmn c hc).1) (by decide)), List.takeWhile_append_of_pos hb, List.dropWhile_append_of_pos hb]
  cases h : lineEnd r with
  | nil => simp
  | cons x xs =>
    rw [h] at hl
    simp [show isBlank x = true from hl]

/-- A raw word of eight digits with what is behind it. -/
theorem assemble_raw {mn digits r : List Char} {n : Nat} (hm : lower mn = ".word".toList) (h8 : digits.length = 8)
    (hd : digitsValue hexDigit 16 0 digits = some n) (hr : Parted r) :
    assemble (mn ++ " 0x".toList ++ digits ++ r) =
      ((parseOperands (lineEnd r)).bind (assembleRaw (BitVec.ofNat 32 n))).map .command := by
  have hcl := digitsValue_clean (fun _ _ => hexDigit_clean) hd
  have hdn : digits ≠ [] := by rintro rfl; cases h8
  have hmn := clean_of_lower hm (by simp [isSeparator, isBlank])
  have hm0 : mn ≠ [] := by rintro rfl; exact absurd hm (by simp [lower])
  have hsc : ';' ∉ mn ++ " 0x".toList ++ digits := by
    have h1 := not_mem_of_clean (fun c hc => (hmn c hc).1) (c := ';') (by decide)
    have h2 := not_mem_of_clean (fun c hc => (hcl c hc).1) (c := ';') (by decide)
    simp [h1, h2]
  have hb : ∀ c ∈ mn, (!isBlank c) = true := fun c hc => by simp [(hmn c hc).2]
  have e : mn ++ " 0x".toList ++ digits ++ lineEnd r = mn ++ ' ' :: '0' :: 'x' :: (digits ++ lineEnd r) := by simp
  rw [assemble_append (trimmed_append (trimmed_of_no_blank fun c hc => (hmn c hc).2) (trimmed_of_no_blank fun c hc => (hcl c hc).2)
    hm0 hdn) (by simp) hsc, e, List.takeWhile_append_of_pos hb, List.dropWhile_append_of_pos hb]
  have hs : isBlank ' ' = true := by decide
  simp only [List.takeWhile_cons, List.dropWhile_cons, hs, Bool.not_true, Bool.false_eq_true, if_false, List.append_nil, hm]
  have hw : assembleWord (' ' :: '0' :: 'x' :: (digits ++ lineEnd r)) =
      (parseOperands (lineEnd r)).bind (assembleRaw (BitVec.ofNat 32 n)) := by
    have ht : trimLeft (' ' :: '0' :: 'x' :: (digits ++ lineEnd r)) = '0' :: 'x' :: (digits ++ lineEnd r) := by
      simp [trimLeft, isBlank]
    unfold assembleWord
    rw [ht]
    have h1 : (digits ++ lineEnd r).take 8 = digits := by rw [List.take_append_of_le_length (by omega), ← h8, List.take_length]
    have h2 : (digits ++ lineEnd r).drop 8 = lineEnd r := by rw [← h8, List.drop_left]
    simp only [h1, h2, hd]
    rw [if_pos ⟨by rw [List.length_append]; omega, parted_lineEnd hr⟩]
    rfl
  unfold assembleMnemonic
  rw [if_pos rfl, hw]

end Sys2Proof.Machine
end

