-- ==== Sys2Proof/Laws/State.lean ====
section
/-! SUPPORT. One lemma per field per update of the state and the context, each true by `rfl`, so that no proof unfolds a record
update. -/

namespace Sys2Proof.Machine

section Context
variable (c : Context) (n : Nat)

@[simp] theorem setCursor_S : (c.setCursor n).S = c.S := rfl
@[simp] theorem setCursor_KS : (c.setCursor n).KS = c.KS := rfl
@[simp] theorem setCursor_CUR : (c.setCursor n).CUR = cursorOf n := rfl
@[simp] theorem setCursor_MODE : (c.setCursor n).MODE = c.MODE := rfl
@[simp] theorem setCursor_KEYED : (c.setCursor n).KEYED = c.KEYED := rfl
@[simp] theorem setCursor_STATUS : (c.setCursor n).STATUS = c.STATUS := rfl
@[simp] theorem setCursor_setCursor (m : Nat) : (c.setCursor m).setCursor n = c.setCursor n := rfl

@[simp] theorem gen_S : c.gen.S = ctrInc c.MODE c.S := rfl
@[simp] theorem gen_KS : c.gen.KS = blockFn c.S := rfl
@[simp] theorem gen_CUR : c.gen.CUR = c.CUR := rfl
@[simp] theorem gen_MODE : c.gen.MODE = c.MODE := rfl
@[simp] theorem gen_KEYED : c.gen.KEYED = c.KEYED := rfl
@[simp] theorem gen_STATUS : c.gen.STATUS = c.STATUS := rfl

@[simp] theorem seekNonceContext_S (v : Vector Byte 16) : (seekNonceContext v c).S = writeNonce16 c.S v := rfl
@[simp] theorem seekNonceContext_KS (v : Vector Byte 16) : (seekNonceContext v c).KS = c.KS := rfl
@[simp] theorem seekNonceContext_CUR (v : Vector Byte 16) : (seekNonceContext v c).CUR = 64 := rfl
@[simp] theorem seekNonceContext_MODE (v : Vector Byte 16) : (seekNonceContext v c).MODE = .nonce128 := rfl
@[simp] theorem seekNonceContext_KEYED (v : Vector Byte 16) : (seekNonceContext v c).KEYED = c.KEYED := rfl

@[simp] theorem seekBlockContext_S (a b : U64) : (seekBlockContext a b c).S = writeBlockNonce c.S a b := rfl
@[simp] theorem seekBlockContext_KS (a b : U64) : (seekBlockContext a b c).KS = c.KS := rfl
@[simp] theorem seekBlockContext_CUR (a b : U64) : (seekBlockContext a b c).CUR = 64 := rfl
@[simp] theorem seekBlockContext_MODE (a b : U64) : (seekBlockContext a b c).MODE = .block := rfl
@[simp] theorem seekBlockContext_KEYED (a b : U64) : (seekBlockContext a b c).KEYED = c.KEYED := rfl

@[simp] theorem initContext_S (key : List Byte) : (initContext key c).S = initWords key := rfl
@[simp] theorem initContext_KS (key : List Byte) : (initContext key c).KS = Vector.replicate 64 0 := rfl
@[simp] theorem initContext_CUR (key : List Byte) : (initContext key c).CUR = 64 := rfl
@[simp] theorem initContext_MODE (key : List Byte) : (initContext key c).MODE = .block := rfl
@[simp] theorem initContext_KEYED (key : List Byte) : (initContext key c).KEYED = true := rfl

end Context

section State
variable (s : State) (code : Status) (out : List Byte) (c : Context) (h : Nat)

@[simp] theorem respond_ctx : (s.respond code out).ctx = { s.ctx with STATUS := code } := rfl
@[simp] theorem respond_response : (s.respond code out).response = some { status := code, out := out } := rfl
@[simp] theorem respond_queues : (s.respond code out).queues = s.queues := rfl
@[simp] theorem respond_turn : (s.respond code out).turn = s.turn := rfl
@[simp] theorem respond_resetIn : (s.respond code out).resetIn = s.resetIn := rfl
@[simp] theorem respond_delivered : (s.respond code out).delivered = s.delivered := rfl
@[simp] theorem respond_out : (s.respond code out).out = out := rfl

@[simp] theorem reject_ctx : (s.reject code).ctx = { s.ctx with STATUS := code } := rfl
@[simp] theorem reject_response : (s.reject code).response = some { status := code, out := [] } := rfl
@[simp] theorem reject_queues : (s.reject code).queues = s.queues := rfl
@[simp] theorem reject_turn : (s.reject code).turn = s.turn := rfl
@[simp] theorem reject_resetIn : (s.reject code).resetIn = s.resetIn := rfl
@[simp] theorem reject_delivered : (s.reject code).delivered = s.delivered := rfl
@[simp] theorem reject_out : (s.reject code).out = [] := rfl

@[simp] theorem complete_ctx : (s.complete c out).ctx = { c with STATUS := .ok } := rfl
@[simp] theorem complete_response : (s.complete c out).response = some { status := .ok, out := out } := rfl
@[simp] theorem complete_queues : (s.complete c out).queues = s.queues := rfl
@[simp] theorem complete_turn : (s.complete c out).turn = s.turn := rfl
@[simp] theorem complete_resetIn : (s.complete c out).resetIn = s.resetIn := rfl
@[simp] theorem complete_delivered : (s.complete c out).delivered = s.delivered := rfl
@[simp] theorem complete_out : (s.complete c out).out = out := rfl

@[simp] theorem accept_ctx : (s.accept h).ctx = s.ctx := rfl
@[simp] theorem accept_response : (s.accept h).response = s.response := rfl
@[simp] theorem accept_queues : (s.accept h).queues = s.queues.set h (s.queueOf h).tail := rfl
@[simp] theorem accept_turn : (s.accept h).turn = s.turn + 1 := rfl
@[simp] theorem accept_resetIn : (s.accept h).resetIn = s.resetIn := rfl
@[simp] theorem accept_delivered : (s.accept h).delivered = s.delivered := rfl

@[simp] theorem deliver_ctx : (s.deliver h).ctx = s.ctx := by unfold State.deliver; split <;> rfl
@[simp] theorem deliver_response : (s.deliver h).response = s.response := by unfold State.deliver; split <;> simp_all
@[simp] theorem deliver_queues : (s.deliver h).queues = s.queues := by unfold State.deliver; split <;> rfl
@[simp] theorem deliver_turn : (s.deliver h).turn = s.turn := by unfold State.deliver; split <;> rfl
@[simp] theorem deliver_resetIn : (s.deliver h).resetIn = s.resetIn := by unfold State.deliver; split <;> rfl

/-- A response on the port is added to what has been delivered. -/
theorem deliver_delivered (r : Response) (hr : s.response = some r) :
    (s.deliver h).delivered = s.delivered ++ [{ host := h, response := r }] := by
  unfold State.deliver; rw [hr]

@[simp] theorem takeReset_ctx (a : ResetArrival) : (s.takeReset a).ctx = Context.reset := by
  unfold State.takeReset; cases a <;> simp only <;> (try split) <;> rfl
@[simp] theorem takeReset_response (a : ResetArrival) : (s.takeReset a).response = none := by
  unfold State.takeReset; cases a <;> simp only <;> (try split) <;> rfl
@[simp] theorem takeReset_resetIn (a : ResetArrival) : (s.takeReset a).resetIn = none := by
  unfold State.takeReset; cases a <;> simp only <;> (try split) <;> rfl
@[simp] theorem takeReset_delivered (a : ResetArrival) : (s.takeReset a).delivered = s.delivered := by
  unfold State.takeReset; cases a <;> simp only <;> (try split) <;> rfl

@[simp] theorem issueFirst_ctx (t : Transaction) : (s.issueFirst t).ctx = s.ctx := by
  unfold State.issueFirst; split <;> rfl
@[simp] theorem issueFirst_response (t : Transaction) : (s.issueFirst t).response = s.response := by
  unfold State.issueFirst; split <;> rfl
@[simp] theorem issueFirst_turn (t : Transaction) : (s.issueFirst t).turn = s.turn := by
  unfold State.issueFirst; split <;> rfl
@[simp] theorem issueFirst_resetIn (t : Transaction) : (s.issueFirst t).resetIn = s.resetIn := by
  unfold State.issueFirst; split <;> rfl
@[simp] theorem issueFirst_delivered (t : Transaction) : (s.issueFirst t).delivered = s.delivered := by
  unfold State.issueFirst; split <;> rfl

end State

end Sys2Proof.Machine
end

