-- ==== Sys2Proof/Laws/Bytes.lean ====
section
/-! SUPPORT. What each byte and word helper of Sys2Proof/Machine/Bytes.lean does, as a number. -/

namespace Sys2Proof.Machine

theorem cursorOf_val (n : Nat) (h : n ≤ 64) : (cursorOf n).val = n := by
  simp [cursorOf, Fin.ofNat]; omega

theorem cursorOf_self (c : Cursor) : cursorOf c.val = c :=
  Fin.ext (cursorOf_val _ (by omega))

theorem setCursor_CUR_val (c : Context) (n : Nat) (h : n ≤ 64) : (c.setCursor n).CUR.val = n := cursorOf_val n h

theorem setCursor_self (c : Context) (n : Nat) (h : c.CUR.val = n) : c.setCursor n = c := by
  obtain ⟨S, KS, CUR, M, K, T⟩ := c
  simp only [Context.setCursor] at h ⊢
  rw [← h, cursorOf_self]

@[simp] theorem xorBytes_nil (b : List Byte) : xorBytes [] b = [] := by simp [xorBytes]

@[simp] theorem xorBytes_cons (a b : Byte) (as bs : List Byte) :
    xorBytes (a :: as) (b :: bs) = (a ^^^ b) :: xorBytes as bs := by simp [xorBytes]

theorem xorBytes_length (a b : List Byte) : (xorBytes a b).length = min a.length b.length := by simp [xorBytes]

/-- R14, without wrap: four bytes never pass 2^32. -/
theorem le32_toNat (b0 b1 b2 b3 : Byte) :
    (le32 b0 b1 b2 b3).toNat = b0.toNat + 2 ^ 8 * b1.toNat + 2 ^ 16 * b2.toNat + 2 ^ 24 * b3.toNat := by
  have h0 := b0.isLt; have h1 := b1.isLt; have h2 := b2.isLt; have h3 := b3.isLt
  rw [le32, BitVec.toNat_ofNat]; omega

theorem byteOfWord_toNat (w : Word) (j : Nat) : (byteOfWord w j).toNat = w.toNat / 2 ^ (8 * j) % 2 ^ 8 := by
  simp [byteOfWord, BitVec.extractLsb'_toNat, Nat.shiftRight_eq_div_pow]

theorem lowWord_toNat (v : U64) : (lowWord v).toNat = v.toNat % 2 ^ 32 := by
  simp [lowWord, BitVec.extractLsb'_toNat]

theorem highWord_toNat (v : U64) : (highWord v).toNat = v.toNat / 2 ^ 32 := by
  have := v.isLt
  simp only [highWord, BitVec.extractLsb'_toNat, Nat.shiftRight_eq_div_pow]; omega

theorem offsetBlock_toNat (v : U64) : (offsetBlock v).toNat = v.toNat / 64 := by
  simp [offsetBlock, BitVec.toNat_udiv]

theorem offsetSub_lt (v : U64) : offsetSub v < 64 := Nat.mod_lt _ (by decide)

/-- A rotation is undone by the rotation through the rest of the word (R13, R102). -/
theorem rotl32_rotl32 (x : Word) (n : Nat) (h : n < 32) (h0 : 0 < n) : rotl32 (rotl32 x n) (32 - n) = x := by
  apply BitVec.eq_of_getLsbD_eq
  intro i hi
  have h32 : 32 - (32 - n) = n := by omega
  simp only [rotl32, h32, BitVec.getLsbD_or, BitVec.getLsbD_shiftLeft, BitVec.getLsbD_ushiftRight]
  by_cases hc : i < 32 - n
  · have h1 : n + i < 32 := by omega
    have h2 : ¬ n + i < n := by omega
    have h3 : n + i - n = i := by omega
    have h4 : ¬ (32 - n + (n + i) < 32) := by omega
    simp [hc, h1, h2, h3, BitVec.getLsbD_of_ge x (32 - n + (n + i)) (by omega)]
  · have h1 : i - (32 - n) < n := by omega
    have h2 : i - (32 - n) < 32 := by omega
    have h3 : 32 - n + (i - (32 - n)) = i := by omega
    have h4 : ¬ (n + i < 32) := by omega
    simp [hc, hi, h1, h2, h3, h4, BitVec.getLsbD_of_ge x (32 - n + (n + i)) (by omega)]

end Sys2Proof.Machine
end

