-- ==== Sys2Proof/Laws/Counter.lean ====
section
/-! SUPPORT. The counter region: word by word, and the increment as one addition (42_counter_and_seek.md R131 to R133). -/

namespace Sys2Proof.Machine

theorem toNat_word_succ (w : Word) : (w + 1#32).toNat = (w.toNat + 1) % 2 ^ 32 := by
  simp [BitVec.toNat_add]

theorem word_succ_eq_zero (w : Word) : w + 1#32 = 0#32 ↔ w.toNat = 2 ^ 32 - 1 := by
  rw [← BitVec.toNat_inj, toNat_word_succ]
  have := w.isLt
  simp only [BitVec.toNat_ofNat]
  omega

theorem word_eq_ofNat (a : Word) (n : Nat) (h : a.toNat = n % 2 ^ 32) : a = BitVec.ofNat 32 n := by
  apply BitVec.eq_of_toNat_eq; simpa using h

/-- Sixteen words are the same when the first twelve are and each of the counter region is. -/
theorem words_ext {x y : Words} (hlow : ∀ j (_ : j < 12), x[j] = y[j]) (h12 : x[12] = y[12]) (h13 : x[13] = y[13])
    (h14 : x[14] = y[14]) (h15 : x[15] = y[15]) : x = y := by
  apply Vector.ext
  intro j hj
  by_cases hl : j < 12
  · exact hlow j hl
  · obtain rfl | rfl | rfl | rfl : j = 12 ∨ j = 13 ∨ j = 14 ∨ j = 15 := by omega
    all_goals assumption

section
variable (S : Words)

theorem withCtr_low (m : Mode) (c j : Nat) (h : j < 12) : (withCtr S m c)[j] = S[j] := by
  cases m <;> simp only [withCtr] <;> simp (disch := omega) only [Vector.getElem_set_ne]

@[simp] theorem withCtr_12 (m : Mode) (c : Nat) : (withCtr S m c)[12] = BitVec.ofNat 32 c := by
  cases m <;> simp [withCtr]

@[simp] theorem withCtr_13 (m : Mode) (c : Nat) : (withCtr S m c)[13] = BitVec.ofNat 32 (c / 2 ^ 32) := by
  cases m <;> simp [withCtr]

@[simp] theorem withCtr_block_14 (c : Nat) : (withCtr S .block c)[14] = S[14] := by
  simp [withCtr]

@[simp] theorem withCtr_block_15 (c : Nat) : (withCtr S .block c)[15] = S[15] := by
  simp [withCtr]

@[simp] theorem withCtr_nonce128_14 (c : Nat) : (withCtr S .nonce128 c)[14] = BitVec.ofNat 32 (c / 2 ^ 64) := by
  simp [withCtr]

@[simp] theorem withCtr_nonce128_15 (c : Nat) : (withCtr S .nonce128 c)[15] = BitVec.ofNat 32 (c / 2 ^ 96) := by
  simp [withCtr]

theorem ctr_lt_wrapOf (m : Mode) : ctr S m < wrapOf m := by
  have h12 := S[12].isLt
  have h13 := S[13].isLt
  have h14 := S[14].isLt
  have h15 := S[15].isLt
  cases m <;> simp only [ctr, wrapOf] <;> omega

theorem wrapOf_pos (m : Mode) : 0 < wrapOf m := by cases m <;> simp [wrapOf]

theorem ctr_withCtr (m : Mode) (c : Nat) (h : c < wrapOf m) : ctr (withCtr S m c) m = c := by
  cases m <;> simp only [wrapOf] at h <;> simp [ctr] <;> omega

theorem withCtr_ctr (m : Mode) : withCtr S m (ctr S m) = S := by
  have h12 := S[12].isLt
  have h13 := S[13].isLt
  have h14 := S[14].isLt
  have h15 := S[15].isLt
  cases m <;> apply words_ext <;> first
    | (intro j hj; exact withCtr_low S _ _ j hj)
    | (simp; done)
    | (simp; symm; apply word_eq_ofNat; simp only [ctr]; omega)

theorem withCtr_withCtr (m : Mode) (a b : Nat) : withCtr (withCtr S m a) m b = withCtr S m b := by
  cases m <;> apply words_ext <;> first
    | (intro j hj; rw [withCtr_low _ _ _ j hj, withCtr_low _ _ _ j hj, withCtr_low _ _ _ j hj])
    | simp

/-- CTR_INC when MODE = 0 is one addition modulo 2^64 (R132). -/
theorem ctrIncBlock_eq : ctrIncBlock S = withCtr S .block ((ctr S .block + 1) % wrapOf .block) := by
  have h12 := S[12].isLt
  have h13 := S[13].isLt
  have c12 := word_succ_eq_zero S[12]
  apply words_ext
  · intro j hj
    rw [withCtr_low _ _ _ j hj]
    simp only [ctrIncBlock]
    split <;> simp (disch := omega) only [Vector.getElem_set_ne]
  all_goals
    simp only [ctrIncBlock, Vector.getElem_set_self, BitVec.ofNat_eq_ofNat, c12]
    split <;> simp <;> (try apply word_eq_ofNat) <;> simp only [toNat_word_succ, ctr, wrapOf] <;> omega

/-- CTR_INC when MODE = 1 is one addition modulo 2^128 (R133). -/
theorem ctrIncNonce128_eq : ctrIncNonce128 S = withCtr S .nonce128 ((ctr S .nonce128 + 1) % wrapOf .nonce128) := by
  have h12 := S[12].isLt
  have h13 := S[13].isLt
  have h14 := S[14].isLt
  have h15 := S[15].isLt
  have c12 := word_succ_eq_zero S[12]
  have c13 := word_succ_eq_zero S[13]
  have c14 := word_succ_eq_zero S[14]
  apply words_ext
  · intro j hj
    rw [withCtr_low _ _ _ j hj]
    simp only [ctrIncNonce128]
    repeat' split
    all_goals simp (disch := omega) only [Vector.getElem_set_ne]
  all_goals
    simp only [ctrIncNonce128]
    by_cases d12 : S[12] + 1#32 = 0#32 <;> by_cases d13 : S[13] + 1#32 = 0#32 <;>
      by_cases d14 : S[14] + 1#32 = 0#32 <;> simp [d12, d13, d14] <;> rw [c12] at d12 <;> rw [c13] at d13 <;>
      rw [c14] at d14 <;> (try apply word_eq_ofNat) <;> simp only [toNat_word_succ, BitVec.toNat_ofNat, ctr, wrapOf] <;> omega
/-- Everything that CTR_INC can do, in either mode. -/
theorem ctrInc_eq (m : Mode) : ctrInc m S = withCtr S m ((ctr S m + 1) % wrapOf m) := by
  cases m
  · exact ctrIncBlock_eq S
  · exact ctrIncNonce128_eq S

theorem ctr_ctrInc (m : Mode) : ctr (ctrInc m S) m = (ctr S m + 1) % wrapOf m := by
  rw [ctrInc_eq, ctr_withCtr _ _ _ (Nat.mod_lt _ (wrapOf_pos m))]

theorem ctrInc_low (m : Mode) (j : Nat) (h : j < 12) : (ctrInc m S)[j] = S[j] := by
  rw [ctrInc_eq, withCtr_low _ _ _ _ h]

theorem ctrInc_block_14 : (ctrInc .block S)[14] = S[14] := by rw [ctrInc_eq, withCtr_block_14]

theorem ctrInc_block_15 : (ctrInc .block S)[15] = S[15] := by rw [ctrInc_eq, withCtr_block_15]

/-- The words with any counter are the same before and after an increment. -/
theorem withCtr_ctrInc (m : Mode) (c : Nat) : withCtr (ctrInc m S) m c = withCtr S m c := by
  rw [ctrInc_eq, withCtr_withCtr]

variable (a b c d : Word)

theorem setCounterRegion_low (j : Nat) (h : j < 12) : (setCounterRegion S a b c d)[j] = S[j] := by
  simp only [setCounterRegion]
  simp (disch := omega) only [Vector.getElem_set_ne]

@[simp] theorem setCounterRegion_12 : (setCounterRegion S a b c d)[12] = a := by simp [setCounterRegion]

@[simp] theorem setCounterRegion_13 : (setCounterRegion S a b c d)[13] = b := by simp [setCounterRegion]

@[simp] theorem setCounterRegion_14 : (setCounterRegion S a b c d)[14] = c := by simp [setCounterRegion]

@[simp] theorem setCounterRegion_15 : (setCounterRegion S a b c d)[15] = d := by simp [setCounterRegion]

/-- Writing the whole counter region forgets what stood there (R141). -/
theorem setCounterRegion_congr (T : Words) (h : ∀ j (_ : j < 12), S[j] = T[j]) :
    setCounterRegion S a b c d = setCounterRegion T a b c d := by
  apply words_ext
  · intro j hj; rw [setCounterRegion_low _ _ _ _ _ j hj, setCounterRegion_low _ _ _ _ _ j hj, h j hj]
  all_goals simp

/-- After SEEK_BLOCK the block counter is BLOCK64 (R77, R137). -/
theorem ctr_writeBlockNonce (nonce blk : U64) : ctr (writeBlockNonce S nonce blk) .block = blk.toNat := by
  have := blk.isLt
  simp only [ctr, writeBlockNonce, setCounterRegion_12, setCounterRegion_13, lowWord_toNat, highWord_toNat]
  omega

end

end Sys2Proof.Machine
end

