-- ==== Sys2Proof/Laws/Update.lean ====
section
/-! SUPPORT. The three steps of UPDATE (43_keystream_update.md R164) are the same as going byte by byte, which is how every law about
UPDATE is proved: one induction over the input. -/

namespace Sys2Proof.Machine

/-- UPDATE on one byte: the next byte of KS, after a GEN when KS is used up. -/
def updateByte (c : Context) (b : Byte) : Context × Byte :=
  if h : c.CUR.val < 64 then (c.setCursor (c.CUR.val + 1), b ^^^ c.KS[c.CUR.val])
  else (c.gen.setCursor 1, b ^^^ c.gen.KS[0])

/-- UPDATE byte by byte. -/
def updateBytes (c : Context) : List Byte → Context × List Byte
  | []      => (c, [])
  | b :: bs => ((updateBytes (updateByte c b).1 bs).1, (updateByte c b).2 :: (updateBytes (updateByte c b).1 bs).2)

theorem updateBytes_append (c : Context) (a b : List Byte) :
    updateBytes c (a ++ b) =
      ((updateBytes (updateBytes c a).1 b).1, (updateBytes c a).2 ++ (updateBytes (updateBytes c a).1 b).2) := by
  induction a generalizing c with
  | nil => simp [updateBytes]
  | cons x xs ih => simp [updateBytes, ih]

theorem updateBytes_buffered (c : Context) (l : List Byte) (h : c.CUR.val + l.length ≤ 64) :
    updateBytes c l = (c.setCursor (c.CUR.val + l.length), xorBytes l (c.KS.toList.drop c.CUR.val)) := by
  induction l generalizing c with
  | nil => simp [updateBytes, setCursor_self]
  | cons b bs ih =>
    have hlt : c.CUR.val < 64 := by simp at h; omega
    have hv := setCursor_CUR_val c (c.CUR.val + 1) (by omega)
    have hd : c.KS.toList.drop c.CUR.val = c.KS[c.CUR.val] :: c.KS.toList.drop (c.CUR.val + 1) := by
      rw [List.drop_eq_getElem_cons (by simpa using hlt)]; simp
    have hb := ih (c.setCursor (c.CUR.val + 1)) (by rw [hv]; simp at h; omega)
    simp only [updateBytes, updateByte, hlt, dif_pos, hb, hv, hd, xorBytes_cons, List.length_cons, setCursor_setCursor,
      setCursor_KS]
    simp only [Nat.add_assoc, Nat.add_comm 1]

theorem updateBytes_fresh (c : Context) (l : List Byte) (hc : c.CUR.val = 64) (h0 : 0 < l.length) (h : l.length ≤ 64) :
    updateBytes c l = (c.gen.setCursor l.length, xorBytes l c.gen.KS.toList) := by
  cases l with
  | nil => simp at h0
  | cons b bs =>
    have hv := setCursor_CUR_val c.gen 1 (by omega)
    have hb := updateBytes_buffered (c.gen.setCursor 1) bs (by rw [hv]; simp at h; omega)
    have hd : c.gen.KS.toList = c.gen.KS[0] :: c.gen.KS.toList.drop 1 := by
      rw [show c.gen.KS.toList = c.gen.KS.toList.drop 0 by simp, List.drop_eq_getElem_cons (by simp)]; simp
    rw [hv] at hb
    simp only [updateBytes, updateByte, hc, Nat.lt_irrefl, dif_neg, not_false_eq_true, hb, setCursor_setCursor, setCursor_KS]
    conv => rhs; rw [hd]
    simp [Nat.add_comm 1]

theorem updateBytes_whole (c : Context) (l : List Byte) (hc : c.CUR.val = 64) (h : l.length = 64) :
    updateBytes c l = (c.gen, xorBytes l c.gen.KS.toList) := by
  rw [updateBytes_fresh c l hc (by omega) (by omega), h, setCursor_self _ _ (by simpa using hc)]

theorem wholeBlocks_eq (n : Nat) (u : Progress) (hc : u.ctx.CUR.val = 64) (hn : n = u.rest.length / 64) :
    usePartialBlock (wholeBlocks n u) =
      { ctx := (updateBytes u.ctx u.rest).1, rest := [], out := u.out ++ (updateBytes u.ctx u.rest).2 } := by
  induction n generalizing u with
  | zero =>
    have hl : u.rest.length < 64 := by omega
    unfold wholeBlocks usePartialBlock
    split
    · rename_i h0
      rw [updateBytes_fresh _ _ hc h0 (by omega)]
    · rename_i h0
      have : u.rest = [] := List.length_eq_zero_iff.mp (by omega)
      obtain ⟨c, r, o⟩ := u
      simp at this
      simp [this, updateBytes]
  | succ n ih =>
    have hl : 64 ≤ u.rest.length := by omega
    rw [wholeBlocks, if_pos hl, ih (wholeBlock u) (by simpa [wholeBlock] using hc)
      (by simp only [wholeBlock, List.length_drop]; omega)]
    have hs := updateBytes_append u.ctx (u.rest.take 64) (u.rest.drop 64)
    rw [List.take_append_drop, updateBytes_whole u.ctx (u.rest.take 64) hc (by rw [List.length_take]; omega)] at hs
    simp only [hs, wholeBlock, List.append_assoc]

theorem useWholeBlocks_eq (u : Progress) (hc : u.ctx.CUR.val = 64) :
    usePartialBlock (useWholeBlocks u) =
      { ctx := (updateBytes u.ctx u.rest).1, rest := [], out := u.out ++ (updateBytes u.ctx u.rest).2 } :=
  wholeBlocks_eq _ u hc rfl

/-- Everything that the three steps of R164 can do: they are UPDATE byte by byte. -/
theorem updateSteps_eq (c : Context) (l : List Byte) :
    updateSteps c l = { ctx := (updateBytes c l).1, rest := [], out := (updateBytes c l).2 } := by
  unfold updateSteps useBuffered bufferedCount
  split
  · rename_i hlt
    simp only at hlt ⊢
    by_cases hl : l.length ≤ 64 - c.CUR.val
    · rw [Nat.min_eq_left hl, updateBytes_buffered c l (by omega)]
      simp [useWholeBlocks, wholeBlocks, usePartialBlock]
    · rw [Nat.min_eq_right (by omega)]
      have hc : (c.setCursor (c.CUR.val + (64 - c.CUR.val))).CUR.val = 64 := by rw [setCursor_CUR_val] <;> omega
      rw [useWholeBlocks_eq _ hc]
      have hs := updateBytes_append c (l.take (64 - c.CUR.val)) (l.drop (64 - c.CUR.val))
      have hlen : (l.take (64 - c.CUR.val)).length = 64 - c.CUR.val := by rw [List.length_take]; omega
      rw [List.take_append_drop, updateBytes_buffered c (l.take (64 - c.CUR.val)) (by omega), hlen] at hs
      simp only [hs, List.nil_append]
  · rename_i hlt
    rw [useWholeBlocks_eq _ (by simp only at hlt ⊢; omega)]
    simp
end Sys2Proof.Machine
end

