-- ==== Sys2Proof/Laws/Position.lean ====
section
/-! SUPPORT. The keystream position and the keystream byte by byte (43_keystream_update.md R168, R169): what one byte of UPDATE does to
them. -/

namespace Sys2Proof.Machine

/-- R35's third fact about KS, for a context with any KEYED. -/
def Context.BufferedBlock (c : Context) : Prop :=
  c.CUR.val < 64 → c.KS = blockFn (withCtr c.S c.MODE ((ctr c.S c.MODE + wrapOf c.MODE - 1) % wrapOf c.MODE))

section
variable (c : Context)

theorem pos_exhausted (h : c.CUR.val = 64) : c.pos = 64 * ctr c.S c.MODE := by
  have hlt := ctr_lt_wrapOf c.S c.MODE
  simp only [Context.pos, pos, keystreamLength, h]
  cases hm : c.MODE <;> rw [hm] at hlt <;> simp only [wrapOf] at hlt ⊢ <;> omega

theorem pos_partly_used (h : c.CUR.val < 64) :
    c.pos = 64 * ((ctr c.S c.MODE + wrapOf c.MODE - 1) % wrapOf c.MODE) + c.CUR.val := by
  have hlt := ctr_lt_wrapOf c.S c.MODE
  simp only [Context.pos, pos, keystreamLength]
  cases hm : c.MODE <;> rw [hm] at hlt <;> simp only [wrapOf] at hlt ⊢ <;> omega

theorem keystreamLength_pos (m : Mode) : 0 < keystreamLength m := by
  have := wrapOf_pos m; simp only [keystreamLength]; omega

theorem pos_lt (h : c.CUR.val ≤ 64) : c.pos < keystreamLength c.MODE := by
  have hw := wrapOf_pos c.MODE
  rcases Nat.lt_or_eq_of_le h with h | h
  · rw [pos_partly_used c h, keystreamLength]
    have := Nat.mod_lt (ctr c.S c.MODE + wrapOf c.MODE - 1) hw
    omega
  · rw [pos_exhausted c h, keystreamLength]
    have := ctr_lt_wrapOf c.S c.MODE
    omega

/-- The keystream is the same before and after an increment: it depends on the words only up to the counter (R169). -/
theorem kstream_ctrInc (S : Words) (m : Mode) (q : Nat) : kstream (ctrInc m S) m q = kstream S m q := by
  simp only [kstream, withCtr_ctrInc]

theorem updateByte_MODE (b : Byte) : (updateByte c b).1.MODE = c.MODE := by
  unfold updateByte; split <;> rfl

theorem updateByte_KEYED (b : Byte) : (updateByte c b).1.KEYED = c.KEYED := by
  unfold updateByte; split <;> rfl

theorem updateByte_STATUS (b : Byte) : (updateByte c b).1.STATUS = c.STATUS := by
  unfold updateByte; split <;> rfl

theorem updateByte_low (b : Byte) (j : Nat) (h : j < 12) : (updateByte c b).1.S[j] = c.S[j] := by
  unfold updateByte; split <;> simp [ctrInc_low _ _ _ h]

theorem updateByte_nonce (b : Byte) (h : c.MODE = .block) :
    (updateByte c b).1.S[14] = c.S[14] ∧ (updateByte c b).1.S[15] = c.S[15] := by
  unfold updateByte; split <;> simp [h, ctrInc_block_14, ctrInc_block_15]

theorem updateByte_CUR (b : Byte) :
    (updateByte c b).1.CUR.val = if c.CUR.val < 64 then c.CUR.val + 1 else 1 := by
  unfold updateByte; split
  · rename_i h; rw [setCursor_CUR_val _ _ (by omega)]
  · rename_i h; rw [setCursor_CUR_val _ _ (by omega)]

theorem updateByte_pos (b : Byte) : (updateByte c b).1.pos = (c.pos + 1) % keystreamLength c.MODE := by
  have hlt := ctr_lt_wrapOf c.S c.MODE
  have hw := wrapOf_pos c.MODE
  unfold updateByte; split
  · rename_i h
    have hv := setCursor_CUR_val c (c.CUR.val + 1) (by omega)
    rw [pos_partly_used c h]
    by_cases h63 : c.CUR.val + 1 = 64
    · rw [pos_exhausted _ (by rw [hv]; exact h63)]
      simp only [setCursor_S, setCursor_MODE, keystreamLength]
      cases hm : c.MODE <;> rw [hm] at hlt <;> simp only [wrapOf] at hlt ⊢ <;> omega
    · rw [pos_partly_used _ (by rw [hv]; omega), hv]
      simp only [setCursor_S, setCursor_MODE, keystreamLength]
      cases hm : c.MODE <;> rw [hm] at hlt <;> simp only [wrapOf] at hlt ⊢ <;> omega
  · rename_i h
    have hv := setCursor_CUR_val c.gen 1 (by omega)
    rw [pos_exhausted c (by omega), pos_partly_used _ (by rw [hv]; omega), hv]
    simp only [setCursor_S, setCursor_MODE, gen_S, gen_MODE, ctr_ctrInc, keystreamLength]
    cases hm : c.MODE <;> rw [hm] at hlt <;> simp only [wrapOf] at hlt ⊢ <;> omega

theorem updateByte_kstream (b : Byte) (q : Nat) :
    kstream (updateByte c b).1.S c.MODE q = kstream c.S c.MODE q := by
  unfold updateByte; split <;> simp [kstream_ctrInc]

theorem updateByte_keystreamByte (b : Byte) (k : Nat) :
    (updateByte c b).1.keystreamByte k = c.keystreamByte (k + 1) := by
  simp only [Context.keystreamByte, updateByte_MODE, updateByte_kstream, updateByte_pos, Nat.mod_add_mod]
  congr 2; omega

theorem updateByte_out (b : Byte) (hb : c.BufferedBlock) : (updateByte c b).2 = b ^^^ c.keystreamByte 0 := by
  have hpos := pos_lt c (by omega)
  simp only [Context.keystreamByte, Nat.add_zero, Nat.mod_eq_of_lt hpos]
  unfold updateByte; split
  · rename_i h
    have hq : c.pos / 64 = (ctr c.S c.MODE + wrapOf c.MODE - 1) % wrapOf c.MODE := by rw [pos_partly_used c h]; omega
    have hr : c.pos % 64 = c.CUR.val := by rw [pos_partly_used c h]; omega
    simp only [kstream, hq, hr, hb h]
  · rename_i h
    have hq : c.pos / 64 = ctr c.S c.MODE := by rw [pos_exhausted c (by omega)]; omega
    have hr : c.pos % 64 = 0 := by rw [pos_exhausted c (by omega)]; omega
    simp only [kstream, hq, hr, withCtr_ctr, gen_KS]

/-- Right after a GEN, KS is the block of the counter value one below the current one (R35, R161). -/
theorem gen_block : blockFn c.S = blockFn (withCtr c.gen.S c.MODE
    ((ctr c.gen.S c.MODE + wrapOf c.MODE - 1) % wrapOf c.MODE)) := by
  have hlt := ctr_lt_wrapOf c.S c.MODE
  have hw := wrapOf_pos c.MODE
  have : ((ctr c.S c.MODE + 1) % wrapOf c.MODE + wrapOf c.MODE - 1) % wrapOf c.MODE = ctr c.S c.MODE := by
    cases hm : c.MODE <;> rw [hm] at hlt <;> simp only [wrapOf] at hlt ⊢ <;> omega
  rw [gen_S, ctr_ctrInc, withCtr_ctrInc, this, withCtr_ctr]

theorem updateByte_bufferedBlock (b : Byte) (hb : c.BufferedBlock) : (updateByte c b).1.BufferedBlock := by
  unfold updateByte; split
  · rename_i h
    intro _
    exact hb h
  · rename_i h
    intro _
    simp only [setCursor_KS, setCursor_S, setCursor_MODE, gen_KS, gen_MODE]
    exact gen_block c

/-! ### The same along a whole input -/

theorem updateBytes_length (l : List Byte) : (updateBytes c l).2.length = l.length := by
  induction l generalizing c with
  | nil => rfl
  | cons b bs ih => simp [updateBytes, ih]

theorem updateBytes_MODE (l : List Byte) : (updateBytes c l).1.MODE = c.MODE := by
  induction l generalizing c with
  | nil => rfl
  | cons b bs ih => simp [updateBytes, ih, updateByte_MODE]

theorem updateBytes_KEYED (l : List Byte) : (updateBytes c l).1.KEYED = c.KEYED := by
  induction l generalizing c with
  | nil => rfl
  | cons b bs ih => simp [updateBytes, ih, updateByte_KEYED]

theorem updateBytes_STATUS (l : List Byte) : (updateBytes c l).1.STATUS = c.STATUS := by
  induction l generalizing c with
  | nil => rfl
  | cons b bs ih => simp [updateBytes, ih, updateByte_STATUS]

theorem updateBytes_low (l : List Byte) (j : Nat) (h : j < 12) : (updateBytes c l).1.S[j] = c.S[j] := by
  induction l generalizing c with
  | nil => rfl
  | cons b bs ih => simp [updateBytes, ih, updateByte_low _ _ _ h]

theorem updateBytes_nonce (l : List Byte) (h : c.MODE = .block) :
    (updateBytes c l).1.S[14] = c.S[14] ∧ (updateBytes c l).1.S[15] = c.S[15] := by
  induction l generalizing c with
  | nil => exact ⟨rfl, rfl⟩
  | cons b bs ih =>
    obtain ⟨h14, h15⟩ := updateByte_nonce c b h
    obtain ⟨i14, i15⟩ := ih (updateByte c b).1 (by rw [updateByte_MODE, h])
    exact ⟨i14.trans h14, i15.trans h15⟩

theorem updateBytes_pos (l : List Byte) (h : c.CUR.val ≤ 64) :
    (updateBytes c l).1.pos = (c.pos + l.length) % keystreamLength c.MODE := by
  induction l generalizing c with
  | nil => simpa [updateBytes] using (Nat.mod_eq_of_lt (pos_lt c h)).symm
  | cons b bs ih =>
    simp only [updateBytes, ih _ (by omega : (updateByte c b).1.CUR.val ≤ 64), updateByte_MODE, updateByte_pos,
      Nat.mod_add_mod, List.length_cons]
    congr 1; omega

theorem updateBytes_bufferedBlock (l : List Byte) (hb : c.BufferedBlock) : (updateBytes c l).1.BufferedBlock := by
  induction l generalizing c with
  | nil => exact hb
  | cons b bs ih => exact ih _ (updateByte_bufferedBlock c b hb)

/-- Output byte `k` is input byte `k` exclusive-ored with the keystream byte `k` on from the position (R170). -/
theorem updateBytes_out (l : List Byte) (hb : c.BufferedBlock) (k : Nat) (hk : k < l.length) :
    (updateBytes c l).2[k]'(by rw [updateBytes_length]; exact hk) = l[k] ^^^ c.keystreamByte k := by
  induction l generalizing c k with
  | nil => simp at hk
  | cons b bs ih =>
    cases k with
    | zero => simp [updateBytes, updateByte_out c b hb]
    | succ k =>
      simp only [updateBytes, List.getElem_cons_succ]
      rw [ih _ (updateByte_bufferedBlock c b hb) k (by simpa using hk), updateByte_keystreamByte]

/-- The blocks generated, counted by the cursor and by the counter alike. -/
theorem updateBytes_generations (l : List Byte) : ∃ g,
    (updateBytes c l).1.CUR.val + 64 * g = c.CUR.val + l.length ∧
    ctr (updateBytes c l).1.S c.MODE = (ctr c.S c.MODE + g) % wrapOf c.MODE := by
  induction l generalizing c with
  | nil => exact ⟨0, by simp [updateBytes], by simp [updateBytes, Nat.mod_eq_of_lt (ctr_lt_wrapOf c.S c.MODE)]⟩
  | cons b bs ih =>
    obtain ⟨g, hcur, hctr⟩ := ih (updateByte c b).1
    have hone : ∃ g1, (updateByte c b).1.CUR.val + 64 * g1 = c.CUR.val + 1 ∧
        ctr (updateByte c b).1.S c.MODE = (ctr c.S c.MODE + g1) % wrapOf c.MODE := by
      by_cases h : c.CUR.val < 64
      · refine ⟨0, by rw [updateByte_CUR, if_pos h], ?_⟩
        rw [updateByte, dif_pos h, setCursor_S, Nat.add_zero, Nat.mod_eq_of_lt (ctr_lt_wrapOf c.S c.MODE)]
      · refine ⟨1, by rw [updateByte_CUR, if_neg h]; omega, ?_⟩
        rw [updateByte, dif_neg h, setCursor_S, gen_S, ctr_ctrInc]
    obtain ⟨g1, hcur1, hctr1⟩ := hone
    refine ⟨g1 + g, by simp only [updateBytes, List.length_cons]; omega, ?_⟩
    simp only [updateByte_MODE] at hctr
    simp only [updateBytes, hctr, hctr1, Nat.mod_add_mod, Nat.add_assoc]

/-- After at least one byte the cursor is in [1, 64] (R167). -/
theorem updateBytes_cursor_pos (l : List Byte) (h : 1 ≤ c.CUR.val ∨ l ≠ []) : 1 ≤ (updateBytes c l).1.CUR.val := by
  induction l generalizing c with
  | nil => simpa [updateBytes] using h
  | cons b bs ih =>
    refine ih _ (.inl ?_)
    rw [updateByte_CUR]; split <;> omega

end

end Sys2Proof.Machine
end

