-- ==== Sys2Proof/Laws/Exec.lean ====
section
/-! SUPPORT. Everything that a command, a transaction and a step can do, said once: a command acts on its checks' verdict, and every
other proof starts from that. -/

namespace Sys2Proof.Machine

/-- The verdict of each command's checks. -/
def verdictOf (keyed : Bool) : Instr → Verdict
  | .init key              => initCheck key.length
  | .seekNonce _           => seekCheck keyed
  | .seekBlock _ _         => seekCheck keyed
  | .seekOffset _ _        => seekCheck keyed
  | .update len input cap  => updateCheck keyed len input.length cap
  | .wipe                  => .proceed

/-- The work of each command when its checks pass: the context it leaves and what it puts out. -/
def workOf (c : Context) : Instr → Context × List Byte
  | .init key           => (initContext key c, [])
  | .seekNonce v        => (seekNonceContext v c, [])
  | .seekBlock n b      => (seekBlockContext n b c, [])
  | .seekOffset n o     => (seekOffsetContext n o c, [])
  | .update _ input _   => updateBytes c input
  | .wipe               => (wipedContext, [])

theorem exec_eq_conclude (i : Instr) (s : State) :
    exec i s = s.conclude (verdictOf s.ctx.KEYED i) fun c => workOf c i := by
  cases i with
  | update len input cap =>
    simp only [exec, execUpdate, verdictOf, workOf, updateSteps_eq]
  | _ => rfl

/-- The three ways in which a command can end, each in a next state. -/
theorem exec_cases (i : Instr) (s : State) :
    (verdictOf s.ctx.KEYED i = .proceed ∧ exec i s = .next (s.complete (workOf s.ctx i).1 (workOf s.ctx i).2)) ∨
    (verdictOf s.ctx.KEYED i = .noOp ∧ exec i s = .next (s.complete s.ctx [])) ∨
    (∃ code, verdictOf s.ctx.KEYED i = .reject code ∧ exec i s = .next (s.reject code)) := by
  rw [exec_eq_conclude]
  cases h : verdictOf s.ctx.KEYED i with
  | proceed => exact .inl ⟨rfl, rfl⟩
  | noOp => exact .inr (.inl ⟨rfl, rfl⟩)
  | reject code => exact .inr (.inr ⟨code, rfl, rfl⟩)

theorem exec_of_proceed {i : Instr} {s : State} (h : verdictOf s.ctx.KEYED i = .proceed) :
    exec i s = .next (s.complete (workOf s.ctx i).1 (workOf s.ctx i).2) := by
  rw [exec_eq_conclude, h]; rfl

theorem exec_of_noOp {i : Instr} {s : State} (h : verdictOf s.ctx.KEYED i = .noOp) :
    exec i s = .next (s.complete s.ctx []) := by
  rw [exec_eq_conclude, h]; rfl

theorem exec_of_reject {i : Instr} {s : State} {code : Status} (h : verdictOf s.ctx.KEYED i = .reject code) :
    exec i s = .next (s.reject code) := by
  rw [exec_eq_conclude, h]; rfl

/-- UPDATE's verdict when its checks pass (R163). -/
theorem updateCheck_proceed {len : U64} {n : Nat} {cap : U64} (h0 : len ≠ 0) (hn : n = len.toNat) (hc : cap = len) :
    updateCheck true len n cap = .proceed := by
  unfold updateCheck
  rw [if_neg (by decide), if_neg h0, if_pos ⟨hn, hc⟩]

/-- An UPDATE of a whole, non-empty buffer on a keyed context. -/
theorem exec_wholeUpdate {m : List Byte} {s : State} (hk : s.ctx.KEYED = true) (h0 : m ≠ []) (hm : m.length < 2 ^ 64) :
    exec (wholeUpdate m) s = .next (s.complete (updateBytes s.ctx m).1 (updateBytes s.ctx m).2) := by
  have hl : 0 < m.length := List.length_pos_iff.mpr h0
  refine exec_of_proceed ?_
  simp only [wholeUpdate, verdictOf, hk]
  refine updateCheck_proceed ?_ ?_ rfl
  · intro h
    have := congrArg BitVec.toNat h
    simp only [BitVec.toNat_ofNat, BitVec.ofNat_eq_ofNat] at this
    omega
  · rw [BitVec.toNat_ofNat]; omega

/-- An UPDATE of an empty buffer on a keyed context (R166). -/
theorem exec_wholeUpdate_nil {s : State} (hk : s.ctx.KEYED = true) :
    exec (wholeUpdate []) s = .next (s.complete s.ctx []) := by
  refine exec_of_noOp ?_
  simp [wholeUpdate, verdictOf, hk, updateCheck]

/-- A transaction is its command, or the rejection of its word. -/
theorem perform_cases (t : Transaction) (s : State) :
    (∃ op, decodeOp t.CMD = some op ∧ perform t s = exec (selectOperands t.fields op) s) ∨
    (decodeOp t.CMD = none ∧ perform t s = .next (s.reject .illegalCommand)) := by
  unfold perform decode
  cases h : decodeOp t.CMD with
  | none => exact .inr ⟨rfl, rfl⟩
  | some op => exact .inl ⟨op, rfl, rfl⟩

theorem perform_goes_on (t : Transaction) (s : State) : ∃ u, perform t s = .next u := by
  obtain ⟨op, -, h⟩ | ⟨-, h⟩ := perform_cases t s
  · obtain ⟨-, he⟩ | ⟨-, he⟩ | ⟨code, -, he⟩ := exec_cases (selectOperands t.fields op) s <;> exact ⟨_, h.trans he⟩
  · exact ⟨_, h⟩

/-- Everything that a step can do. -/
theorem step_cases (s : State) :
    (∃ a, s.resetIn = some a ∧ step s = .next (s.takeReset a)) ∨
    (s.resetIn = none ∧ s.nextCommand = none ∧ step s = .next s) ∨
    (∃ h t u, s.resetIn = none ∧ s.nextCommand = some (h, t) ∧ perform t (s.accept h) = .next u ∧
      step s = .next (u.deliver h)) := by
  unfold step
  cases hr : s.resetIn with
  | some a => exact .inl ⟨a, rfl, rfl⟩
  | none =>
    cases hn : s.nextCommand with
    | none => exact .inr (.inl ⟨rfl, rfl, rfl⟩)
    | some p =>
      obtain ⟨h, t⟩ := p
      obtain ⟨u, hu⟩ := perform_goes_on t (s.accept h)
      exact .inr (.inr ⟨h, t, u, rfl, rfl, hu, by simp only [hu, deliverTo]⟩)

end Sys2Proof.Machine
end

