-- ==== Sys2Proof/Laws/Operands.lean ====
section
/-! SUPPORT. The words that operand fields become, as numbers (30_encoding.md R75 to R77). -/

namespace Sys2Proof.Machine

theorem keyWord_toNat (key : List Byte) (i : Nat) : (keyWord key i).toNat =
   (key.getD (4 * i) 0).toNat + 2 ^ 8 * (key.getD (4 * i + 1) 0).toNat + 2 ^ 16 * (key.getD (4 * i + 2) 0).toNat +
          2 ^ 24 * (key.getD (4 * i + 3) 0).toNat := by
  rw [keyWord, le32At, le32_toNat]; rfl

theorem initWords_key (key : List Byte) (i : Nat) (h : i < 8) : (initWords key)[4 + i] = keyWord key i := by
  unfold initWords
  obtain rfl | rfl | rfl | rfl | rfl | rfl | rfl | rfl :
    i = 0 ∨ i = 1 ∨ i = 2 ∨ i = 3 ∨ i = 4 ∨ i = 5 ∨ i = 6 ∨ i = 7 := by omega
  all_goals rfl

theorem nonceWord_toNat (v : Vector Byte 16) (i : Nat) (h : i < 4) : (nonceWord v i).toNat =
   v[4 * i].toNat + 2 ^ 8 * v[4 * i + 1].toNat + 2 ^ 16 * v[4 * i + 2].toNat + 2 ^ 24 * v[4 * i + 3].toNat := by
  rw [nonceWord, le32At, le32_toNat]
  simp only [byteAt, List.getD_eq_getElem?_getD]
  rw [List.getElem?_eq_getElem (by simp; omega), List.getElem?_eq_getElem (by simp; omega),
      List.getElem?_eq_getElem (by simp; omega), List.getElem?_eq_getElem (by simp; omega)]
  simp

end Sys2Proof.Machine
end

