-- ==== Sys2Proof/Laws/Seek.lean ====
section
/-! SUPPORT. What the three seeks have in common (42_counter_and_seek.md R136 to R140), and where SEEK_OFFSET lands. -/

namespace Sys2Proof.Machine

theorem seekCheck_true : seekCheck true = .proceed := rfl

theorem seekCheck_false : seekCheck false = .reject .notKeyed := rfl

theorem seekOffsetContext_aligned (n o : U64) (c : Context) (h : o.toNat % 64 = 0) :
    seekOffsetContext n o c = seekBlockContext n (offsetBlock o) c := by
  simp [seekOffsetContext, offsetSub, h]

theorem seekOffsetContext_inside (n o : U64) (c : Context) (h : 0 < o.toNat % 64) :
    seekOffsetContext n o c = (seekBlockContext n (offsetBlock o) c).gen.setCursor (o.toNat % 64) := by
  simp [seekOffsetContext, offsetSub, h]

theorem seekOffsetContext_low (n o : U64) (c : Context) (j : Nat) (hj : j < 12) : (seekOffsetContext n o c).S[j] = c.S[j] := by
  unfold seekOffsetContext; simp only; split
  · simp only [setCursor_S, gen_S, ctrInc_low _ _ _ hj, seekBlockContext_S]
    exact setCounterRegion_low _ _ _ _ _ j hj
  · exact setCounterRegion_low _ _ _ _ _ j hj

theorem seekOffsetContext_KEYED (n o : U64) (c : Context) : (seekOffsetContext n o c).KEYED = c.KEYED := by
  unfold seekOffsetContext; simp only; split <;> rfl

theorem seek_verdict {i : Instr} (h : Op.isSeek i.op = true) (k : Bool) : verdictOf k i = seekCheck k := by
  cases i <;> simp_all [Op.isSeek, Instr.op, verdictOf]

theorem seek_work_low {i : Instr} (h : Op.isSeek i.op = true) (c : Context) (j : Nat) (hj : j < 12) :
    (workOf c i).1.S[j] = c.S[j] := by
  cases i <;> first | (simp [Op.isSeek, Instr.op] at h; done) | exact setCounterRegion_low _ _ _ _ _ j hj | exact seekOffsetContext_low _ _ _ j hj

theorem seek_work_keyed {i : Instr} (h : Op.isSeek i.op = true) (c : Context) : (workOf c i).1.KEYED = c.KEYED := by
  cases i <;> first | (simp [Op.isSeek, Instr.op] at h; done) | rfl | exact seekOffsetContext_KEYED _ _ _

theorem seek_work_out {i : Instr} (h : Op.isSeek i.op = true) (c : Context) : (workOf c i).2 = [] := by
  cases i <;> first | (simp [Op.isSeek, Instr.op] at h; done) | rfl

/-- Everything a seek does on a keyed context. -/
theorem exec_seek {i : Instr} {s : State} (h : Op.isSeek i.op = true) (hk : s.ctx.KEYED = true) :
    exec i s = .next (s.complete (workOf s.ctx i).1 []) := by
  rw [exec_of_proceed (by rw [seek_verdict h, hk]; rfl), seek_work_out h]

theorem seekOffset_congr (n o : U64) (c d : Context) (hS : ∀ j (_ : j < 12), c.S[j] = d.S[j]) :
    (seekOffsetContext n o c).S = (seekOffsetContext n o d).S ∧ (seekOffsetContext n o c).MODE = (seekOffsetContext n o d).MODE ∧
    (seekOffsetContext n o c).CUR = (seekOffsetContext n o d).CUR ∧
    ((seekOffsetContext n o c).CUR.val < 64 → (seekOffsetContext n o c).KS = (seekOffsetContext n o d).KS) := by
  have hw : writeBlockNonce c.S n (offsetBlock o) = writeBlockNonce d.S n (offsetBlock o) := setCounterRegion_congr _ _ _ _ _ _ hS
  unfold seekOffsetContext; simp only; split
  · simp [hw]
  · simp [hw]

/-- A seek's result depends on nothing of the old context but S[0..11]. -/
theorem seek_congr {i : Instr} (h : Op.isSeek i.op = true) (c d : Context) (hS : ∀ j (_ : j < 12), c.S[j] = d.S[j]) :
    (workOf c i).1.S = (workOf d i).1.S ∧ (workOf c i).1.MODE = (workOf d i).1.MODE ∧ (workOf c i).1.CUR = (workOf d i).1.CUR ∧
    ((workOf c i).1.CUR.val < 64 → (workOf c i).1.KS = (workOf d i).1.KS) := by
  cases i with
  | seekNonce v => exact ⟨setCounterRegion_congr _ _ _ _ _ _ hS, rfl, rfl, fun hc => absurd hc (Nat.lt_irrefl 64)⟩
  | seekBlock n b => exact ⟨setCounterRegion_congr _ _ _ _ _ _ hS, rfl, rfl, fun hc => absurd hc (Nat.lt_irrefl 64)⟩
  | seekOffset n o => exact seekOffset_congr n o c d hS
  | _ => simp [Op.isSeek, Instr.op] at h

theorem pos_seekOffset (n o : U64) (c : Context) : (seekOffsetContext n o c).pos = o.toNat := by
  have hlt := o.isLt
  have hc := ctr_writeBlockNonce c.S n (offsetBlock o)
  rw [offsetBlock_toNat] at hc
  rcases Nat.eq_zero_or_pos (o.toNat % 64) with h | h
  · rw [seekOffsetContext_aligned _ _ _ h, pos_exhausted _ rfl]
    simp only [seekBlockContext_S, seekBlockContext_MODE, hc]; omega
  · rw [seekOffsetContext_inside _ _ _ h]
    have hv := setCursor_CUR_val (seekBlockContext n (offsetBlock o) c).gen (o.toNat % 64) (by omega)
    rw [pos_partly_used _ (by rw [hv]; omega), hv]
    simp only [setCursor_S, setCursor_MODE, gen_S, gen_MODE, seekBlockContext_MODE, seekBlockContext_S, ctr_ctrInc, hc, wrapOf]
    omega

theorem kstream_congr (S T : Words) (m : Mode) (q : Nat) (h : ∀ c, withCtr S m c = withCtr T m c) :
    kstream S m q = kstream T m q := by
  simp only [kstream, h]

/-- The keystream from where a SEEK_OFFSET landed is the one keystream of key and nonce, from the offset on. -/
theorem keystream_seekOffset (n o : U64) (c : Context) (k : Nat) : (seekOffsetContext n o c).keystreamByte k =
    kstream (writeBlockNonce c.S n 0) .block ((o.toNat + k) % keystreamLength .block) := by
  have hM : (seekOffsetContext n o c).MODE = .block := by unfold seekOffsetContext; simp only; split <;> rfl
  simp only [Context.keystreamByte, hM, pos_seekOffset]
  apply kstream_congr
  intro d
  have hw : ∀ b, withCtr (writeBlockNonce c.S n b) .block d = withCtr (writeBlockNonce c.S n 0) .block d := by
    intro b
    apply words_ext
    · intro j hj; rw [withCtr_low _ _ _ _ hj, withCtr_low _ _ _ _ hj]
      exact (setCounterRegion_low _ _ _ _ _ j hj).trans (setCounterRegion_low _ _ _ _ _ j hj).symm
    all_goals simp [writeBlockNonce]
  unfold seekOffsetContext; simp only; split
  · simp only [setCursor_S, gen_S, seekBlockContext_MODE, withCtr_ctrInc, seekBlockContext_S, hw]
  · simp only [seekBlockContext_S, hw]

theorem seekOffset_MODE (n o : U64) (c : Context) : (seekOffsetContext n o c).MODE = .block := by
  unfold seekOffsetContext; simp only; split <;> rfl

theorem seekOffset_buffered (n o : U64) (c : Context) : (seekOffsetContext n o c).BufferedBlock := by
  unfold seekOffsetContext; simp only; split
  · intro _; exact gen_block (seekBlockContext n (offsetBlock o) c)
  · intro hc; exact absurd hc (Nat.lt_irrefl 64)

theorem seekOffset_cursor (n o : U64) (c : Context) : 1 ≤ (seekOffsetContext n o c).CUR.val := by
  have := offsetSub_lt o
  unfold seekOffsetContext; simp only; split
  · rw [setCursor_CUR_val _ _ (by omega)]; omega
  · exact (by omega : 1 ≤ 64)

end Sys2Proof.Machine
end

