-- ==== Sys2Proof/Laws/Stream.lean ====
section
/-! SUPPORT. UPDATE byte by byte, taken on (43_keystream_update.md R164 to R173): in chunks, twice over, and after an INIT and a seek. -/

namespace Sys2Proof.Machine

theorem Inv_bufferedBlock {c : Context} (h : c.Inv) (hk : c.KEYED = true) : c.BufferedBlock := fun hc => h.buffered hk hc

/-- Everything an UPDATE whose checks pass does. -/
theorem exec_update {len cap : U64} {input : List Byte} {s : State} (hk : s.ctx.KEYED = true) (h0 : len ≠ 0)
    (hl : input.length = len.toNat) (hc : cap = len) :
    exec (.update len input cap) s = .next (s.complete (updateBytes s.ctx input).1 (updateBytes s.ctx input).2) := by
  refine exec_of_proceed ?_
  simp only [verdictOf, hk]
  exact updateCheck_proceed h0 hl hc

theorem len_pos {len : U64} (h0 : len ≠ 0) : 0 < len.toNat := by
  rcases Nat.eq_zero_or_pos len.toNat with h | h
  · exact absurd (BitVec.eq_of_toNat_eq (by simpa using h)) h0
  · exact h

theorem genCount_eq {cur : Cursor} {n g cur' : Nat} (hn : 0 < n) (h : cur' + 64 * g = cur.val + n) (h1 : 1 ≤ cur')
    (h2 : cur' ≤ 64) :
    genCount cur n = g := by
  have := cur.isLt
  unfold genCount
  split_ifs <;> omega

theorem xorBytes_get (a b : List Byte) (k : Nat) (x y : Byte) (ha : a[k]? = some x) (hb : b[k]? = some y) :
    (xorBytes a b)[k]? = some (x ^^^ y) := by
  simp [xorBytes, List.getElem?_zipWith, ha, hb]

theorem exec_wholeUpdate_any {m : List Byte} {s : State} (hk : s.ctx.KEYED = true) (hm : m.length < 2 ^ 64) :
    exec (wholeUpdate m) s = .next (s.complete (updateBytes s.ctx m).1 (updateBytes s.ctx m).2) := by
  by_cases h0 : m = []
  · subst h0; exact exec_wholeUpdate_nil hk
  · exact exec_wholeUpdate hk h0 hm

theorem updateBytes_setStatus (c : Context) (l : List Byte) (st : Status) :
    updateBytes { c with STATUS := st } l = ({ (updateBytes c l).1 with STATUS := st }, (updateBytes c l).2) := by
  have hb : ∀ (c : Context) b, updateByte { c with STATUS := st } b = ({ (updateByte c b).1 with STATUS := st }, (updateByte c b).2) := by
    intro c b; unfold updateByte; split <;> rfl
  induction l generalizing c with
  | nil => rfl
  | cons b bs ih => simp only [updateBytes, hb, ih]

theorem runUpdates_eq (chunks : List (List Byte)) (s : State) (hk : s.ctx.KEYED = true) (hl : chunks.flatten.length < 2 ^ 64) :
    ∃ u st, runUpdates chunks s = .next (u, (updateBytes s.ctx chunks.flatten).2) ∧
      u.ctx = { (updateBytes s.ctx chunks.flatten).1 with STATUS := st } := by
  induction chunks generalizing s with
  | nil => exact ⟨s, s.ctx.STATUS, rfl, rfl⟩
  | cons m ms ih =>
    simp only [List.flatten_cons, List.length_append] at hl ⊢
    have he := exec_wholeUpdate_any (m := m) hk (by omega)
    obtain ⟨u, st, hr, hu⟩ := ih (s.complete (updateBytes s.ctx m).1 (updateBytes s.ctx m).2)
      (by simp [updateBytes_KEYED, hk]) (by omega)
    refine ⟨u, st, ?_, ?_⟩
    · rw [runUpdates, he]
      simp only [hr, complete_out, complete_ctx, updateBytes_setStatus, updateBytes_append]
    · rw [hu, complete_ctx, updateBytes_setStatus, updateBytes_append]

theorem updateBytes_out_twice (c : Context) (m : List Byte) :
    (updateBytes c (updateBytes c m).2).2 = m ∧ (updateBytes c (updateBytes c m).2).1 = (updateBytes c m).1 := by
  have hb : ∀ (c : Context) b, (updateByte c (updateByte c b).2).2 = b ∧ (updateByte c (updateByte c b).2).1 = (updateByte c b).1 := by
    intro c b; unfold updateByte; split <;> simp
  induction m generalizing c with
  | nil => exact ⟨rfl, rfl⟩
  | cons b bs ih => simp only [updateBytes, (hb c b).1, (hb c b).2, (ih _).1, (ih _).2, and_self]

theorem updateBytes_ctx_congr (c : Context) (a b : List Byte) (h : a.length = b.length) :
    (updateBytes c a).1 = (updateBytes c b).1 := by
  have hb : ∀ (c : Context) x y, (updateByte c x).1 = (updateByte c y).1 := by intro c x y; unfold updateByte; split <;> rfl
  induction a generalizing c b with
  | nil => cases b with
    | nil => rfl
    | cons => simp at h
  | cons x xs ih => cases b with
    | nil => simp at h
    | cons y ys => simp only [updateBytes, hb c x y]; exact ih _ ys (by simpa using h)

theorem updateBytes_get_congr (c : Context) (a b : List Byte) (h : a.length = b.length) (k : Nat) (hk : a[k]? = b[k]?) :
    (updateBytes c a).2[k]? = (updateBytes c b).2[k]? := by
  have hb : ∀ (c : Context) x y, (updateByte c x).1 = (updateByte c y).1 := by intro c x y; unfold updateByte; split <;> rfl
  induction a generalizing c b k with
  | nil => cases b with
    | nil => rfl
    | cons => simp at h
  | cons x xs ih => cases b with
    | nil => simp at h
    | cons y ys =>
      cases k with
      | zero => simp at hk; subst hk; simp [updateBytes]
      | succ k => simp only [updateBytes, List.getElem?_cons_succ, hb c x y]; exact ih _ ys (by simpa using h) k (by simpa using hk)

theorem seekOffset_discard (n b o : U64) (d : List Byte) (c : Context) (hd : d.length < 64)
    (ho : o.toNat = 64 * b.toNat + d.length) :
    (updateBytes (seekBlockContext n b c) d).1 = seekOffsetContext n o c := by
  have hb : offsetBlock o = b := by
    apply BitVec.eq_of_toNat_eq; rw [offsetBlock_toNat]; omega
  have hm : o.toNat % 64 = d.length := by omega
  rcases Nat.eq_zero_or_pos d.length with h | h
  · rw [seekOffsetContext_aligned _ _ _ (by omega), hb, List.length_eq_zero_iff.mp h]; rfl
  · rw [seekOffsetContext_inside _ _ _ (by omega), hb, hm, updateBytes_fresh _ _ rfl h (by omega)]

/-- Everything an INIT with a 32-byte key does. -/
theorem exec_init {key : List Byte} (s : State) (hk : key.length = 32) :
    exec (.init key) s = .next (s.complete (initContext key s.ctx) []) :=
  exec_of_proceed (by simp [verdictOf, initCheck, hk])

theorem exec_wipe (s : State) : exec .wipe s = .next (s.complete wipedContext []) := rfl

/-- The context that an INIT and a seek leave: nothing of the one before is in it. -/
def freshContext (key : List Byte) (seek : Instr) : Context := { (workOf { initContext key Context.reset with STATUS := .ok } seek).1 with STATUS := .ok }

theorem run_init_seek {key : List Byte} {seek : Instr} (s : State) (hk : key.length = 32) (h : Op.isSeek seek.op = true) :
    ∃ u, runUntilRejected [.init key, seek] s = .next u ∧ u.ctx = freshContext key seek := by
  refine ⟨(s.complete (initContext key s.ctx) []).complete (workOf (s.complete (initContext key s.ctx) []).ctx seek).1 [], ?_, rfl⟩
  simp only [runUntilRejected, exec_init s hk, complete_ctx, if_true]
  rw [exec_seek h (by rfl)]
  simp only [complete_ctx, if_true]

theorem freshContext_KEYED (key : List Byte) {seek : Instr} (h : Op.isSeek seek.op = true) :
    (freshContext key seek).KEYED = true := by
  simp [freshContext, seek_work_keyed h]

theorem freshContext_buffered (key : List Byte) {seek : Instr} (h : Op.isSeek seek.op = true) :
    (freshContext key seek).BufferedBlock := by
  cases seek with
  | seekNonce v => intro hc; exact absurd hc (Nat.lt_irrefl 64)
  | seekBlock n b => intro hc; exact absurd hc (Nat.lt_irrefl 64)
  | seekOffset n o =>
    intro _
    simp only [freshContext, workOf]
    unfold seekOffsetContext
    simp only
    split
    · exact gen_block (seekBlockContext n (offsetBlock o) _)
    · rename_i hc _; exact absurd hc (by simp [freshContext, workOf, seekOffsetContext, *])
  | _ => simp [Op.isSeek, Instr.op] at h

theorem freshContext_keystream (key : List Byte) (n o : U64) (k : Nat) : (freshContext key (.seekOffset n o)).keystreamByte k = 
   kstream (writeBlockNonce (initWords key) n 0) .block ((o.toNat + k) % keystreamLength .block) :=
  keystream_seekOffset n o _ k

theorem runUntilRejected_ok {i : Instr} {is : List Instr} {s t : State} (h : exec i s = .next t) (hs : t.ctx.STATUS = .ok) :
    runUntilRejected (i :: is) s = runUntilRejected is t := by
  rw [runUntilRejected, h]; simp only [hs, if_true]

theorem run_body {key input : List Byte} {seek : Instr} (s : State) (hk : key.length = 32) (hs : Op.isSeek seek.op = true)
    (hm : input.length < 2 ^ 64) :
    ∃ u, runUntilRejected [.init key, seek, wholeUpdate input] s = .next u ∧ u.ctx.STATUS = .ok ∧ u.out = (updateBytes (freshContext key seek) input).2 := by
  have h2 : (workOf { initContext key s.ctx with STATUS := .ok } seek).1.KEYED = true := seek_work_keyed hs _
  rw [runUntilRejected_ok (exec_init s hk) rfl, runUntilRejected_ok (exec_seek hs rfl) rfl, runUntilRejected_ok (exec_wholeUpdate_any h2 hm) rfl]
  exact ⟨_, rfl, rfl, rfl⟩

theorem run_badKey {key : List Byte} {is : List Instr} (s : State) (hk : key.length ≠ 32) :
    runUntilRejected (.init key :: is) s = .next (s.reject .invalidArgument) := by
  simp only [runUntilRejected]
  rw [exec_of_reject (i := .init key) (code := .invalidArgument) (by simp [verdictOf, initCheck, hk])]
  simp

/-- Everything a one-shot form with a 32-byte key does. -/
theorem run_seek {o : OneShot} {key input : List Byte} {seek : Instr} (hb : o.body = [.init key, seek, wholeUpdate input])
    (s : State) (hk : key.length = 32) (hs : Op.isSeek seek.op = true) (hm : input.length < 2 ^ 64) :
   ∃ r, o.run s = .next r ∧ r.block.ctx = State.reset.ctx ∧ r.status = .ok ∧ r.out = (updateBytes (freshContext key seek) input).2 := by
  obtain ⟨u, hu, h1, h2⟩ := run_body s hk hs hm
  refine ⟨_, by unfold OneShot.run; rw [hb, hu]; simp only [exec_wipe]; rfl, rfl, h1, ?_⟩
  simp only [h1, if_true, h2]

end Sys2Proof.Machine
end

