-- ==== Sys2Proof/Laws/Verdict.lean ====
section
/-! SUPPORT. The verdicts of the commands' checks, and the status that follows from them (60_exceptions.md R200 to R207). -/

namespace Sys2Proof.Machine

theorem needsKey_verdict {i : Instr} (h : Op.needsKey i.op = true) : verdictOf false i = .reject .notKeyed := by
  cases i <;> simp_all [Op.needsKey, Instr.op, verdictOf, seekCheck, updateCheck]

theorem proceed_keyed {i : Instr} {k : Bool} (h : verdictOf k i = .proceed) (hn : Op.needsKey i.op = true) : k = true := by
  cases k with
  | true => rfl
  | false => rw [needsKey_verdict hn] at h; cases h

/-- Only an UPDATE completes with nothing done. -/
theorem noOp_update {i : Instr} {k : Bool} (h : verdictOf k i = .noOp) : i.op = .update ∧ k = true := by
  cases i <;> simp only [verdictOf, initCheck, seekCheck, updateCheck] at h <;> (try split_ifs at h) <;> simp_all [Instr.op]

theorem reject_not_ok {i : Instr} {k : Bool} {c : Status} (h : verdictOf k i = .reject c) : c ≠ .ok := by
  cases i <;> simp only [verdictOf, initCheck, seekCheck, updateCheck] at h <;> (try split_ifs at h) <;> cases h <;> decide

/-- The status that a verdict comes to. -/
def statusOf : Verdict → Status
  | .proceed => .ok
  | .noOp => .ok
  | .reject c => c

theorem exec_status (i : Instr) (s : State) : ∃ u, exec i s = .next u ∧ u.ctx.STATUS = statusOf (verdictOf s.ctx.KEYED i) := by
  obtain ⟨hv, he⟩ | ⟨hv, he⟩ | ⟨code, hv, he⟩ := exec_cases i s <;> exact ⟨_, he, by rw [hv]; rfl⟩

end Sys2Proof.Machine
end

