-- ==== Sys2Proof/Laws/Invariant.lean ====
section
/-! SUPPORT. The parts of the invariant (Sys2Proof/Safety.lean), command by command. -/

namespace Sys2Proof.Machine

theorem inv_reset_status (st : Status) : ({ Context.reset with STATUS := st } : Context).Inv :=
  ⟨fun h => absurd h Bool.false_ne_true, fun h => absurd h Bool.false_ne_true, fun h => absurd h Bool.false_ne_true, fun _ => rfl⟩

theorem inv_setStatus {c : Context} (st : Status) (h : c.Inv) : ({ c with STATUS := st } : Context).Inv :=
  ⟨h.constants, h.cursor, h.buffered, fun hk => by
    have := h.unkeyed hk
    rw [this]⟩

/-- While KEYED = 1 these three are the whole invariant. -/
theorem inv_of_keyed {c : Context} (hk : c.KEYED = true) (hc : ∀ i : Fin 4, c.S[i.val] = constWord i) (h1 : 1 ≤ c.CUR.val)
    (hb : c.BufferedBlock) : c.Inv :=
  ⟨fun _ => hc, fun _ => h1, fun _ h => hb h, fun h => absurd (hk.symm.trans h) (by decide)⟩

theorem initWords_constants (key : List Byte) (i : Fin 4) : (initWords key)[i.val] = constWord i := by
  match i with
  | 0 => rfl
  | 1 => rfl
  | 2 => rfl
  | 3 => rfl

theorem inv_seek {i : Instr} {c : Context} (h : Op.isSeek i.op = true) (hk : c.KEYED = true) (hc : c.Inv) :
    (workOf c i).1.Inv := by
  refine inv_of_keyed ((seek_work_keyed h c).trans hk) (fun j => ?_) ?_ ?_
  · rw [seek_work_low h c j.val (by omega)]; exact hc.constants hk j
  · cases i with
    | seekNonce v => exact (by omega : 1 ≤ 64)
    | seekBlock n b => exact (by omega : 1 ≤ 64)
    | seekOffset n o => exact seekOffset_cursor n o c
    | _ => simp [Op.isSeek, Instr.op] at h
  · cases i with
    | seekNonce v => intro hc; exact absurd hc (Nat.lt_irrefl 64)
    | seekBlock n b => intro hc; exact absurd hc (Nat.lt_irrefl 64)
    | seekOffset n o => exact seekOffset_buffered n o c
    | _ => simp [Op.isSeek, Instr.op] at h

theorem inv_updateBytes {c : Context} (l : List Byte) (hk : c.KEYED = true) (h : c.Inv) : (updateBytes c l).1.Inv :=
  inv_of_keyed ((updateBytes_KEYED c l).trans hk) (fun j => (updateBytes_low c l j.val (by omega)).trans (h.constants hk j))
    (updateBytes_cursor_pos c l (.inl (h.cursor hk))) (updateBytes_bufferedBlock c l (Inv_bufferedBlock h hk))

theorem inv_exec {i : Instr} {s u : State} (h : exec i s = .next u) (hc : s.ctx.Inv) : u.ctx.Inv := by
  obtain ⟨hv, he⟩ | ⟨-, he⟩ | ⟨code, -, he⟩ := exec_cases i s <;> rw [he] at h <;> cases h
  · refine inv_setStatus _ ?_
    cases i with
    | init key => exact inv_of_keyed rfl (initWords_constants key) (show 1 ≤ 64 by omega) (fun hc => absurd hc (Nat.lt_irrefl 64))
    | wipe => exact inv_reset_status .ok
    | update len input cap => exact inv_updateBytes _ (proceed_keyed hv rfl) hc
    | seekNonce v => exact inv_seek rfl (proceed_keyed hv rfl) hc
    | seekBlock v => exact inv_seek rfl (proceed_keyed hv rfl) hc
    | seekOffset v => exact inv_seek rfl (proceed_keyed hv rfl) hc
  · exact inv_setStatus _ hc
  · exact inv_setStatus _ hc

end Sys2Proof.Machine
end

