-- ==== Sys2Proof/Laws/PerInstr.lean ====
section
/-! SUPPORT. Per-instruction statements, one lemma for each command. `CommandWord`: what stands in the two fields of the command's one
legal word (30_encoding.md R71 to R73). -/

open Sys2Proof.Machine

namespace Sys2Proof.Laws.CommandWord

/-- The number that R72's table gives each command. -/
def opNumber : Instr → Nat
  | .init _         => 1
  | .seekNonce _    => 2
  | .seekBlock _ _  => 3
  | .seekOffset _ _ => 4
  | .update _ _ _   => 5
  | .wipe           => 6

/-- The command's word holds the table's number in OP and zero in RSVD, and so is that number as a 32-bit word; it reads back as the
command. -/
def Statement (i : Instr) : Prop :=
  (opField (encode i).CMD).toNat = opNumber i ∧ rsvdField (encode i).CMD = 0 ∧ (encode i).CMD.toNat = opNumber i ∧
    decodeOp (encode i).CMD = some i.op

theorem init (key : List Byte) : Statement (.init key) := ⟨rfl, rsvdField_commandWord _, rfl, (decodeOp_iff _ _).mpr rfl⟩

theorem seekNonce (nonce16 : Vector Byte 16) : Statement (.seekNonce nonce16) := ⟨rfl, rsvdField_commandWord _, rfl, (decodeOp_iff _ _).mpr rfl⟩

theorem seekBlock (nonce64 block64 : U64) : Statement (.seekBlock nonce64 block64) := ⟨rfl, rsvdField_commandWord _, rfl, (decodeOp_iff _ _).mpr rfl⟩

theorem seekOffset (nonce64 offset64 : U64) : Statement (.seekOffset nonce64 offset64) := ⟨rfl, rsvdField_commandWord _, rfl, (decodeOp_iff _ _).mpr rfl⟩

theorem update (len : U64) (input : List Byte) (outCap : U64) : Statement (.update len input outCap) := ⟨rfl, rsvdField_commandWord _, rfl, (decodeOp_iff _ _).mpr rfl⟩

theorem wipe : Statement .wipe := ⟨rfl, rsvdField_commandWord _, rfl, (decodeOp_iff _ _).mpr rfl⟩

end Sys2Proof.Laws.CommandWord
end

