-- ==== Sys2Proof/Laws/Permutation.lean ====
section
/-! SUPPORT. The permutation core word by word (40_permutation_core.md R101 to R105): one quarter round, its inverse, and quadruples that share no word. -/

namespace Sys2Proof.Machine

theorem rotl32_eq (x : Word) (n : Nat) (h : n < 32) : rotl32 x n = x.rotateLeft n := by
  rw [rotl32, BitVec.rotateLeft_def, Nat.mod_eq_of_lt h]

theorem words_ext_fin {x y : Words} (h : ∀ m : Fin 16, x[m] = y[m]) : x = y := by
  apply Vector.ext; intro i hi; exact h ⟨i, hi⟩

/-- Every word after a quarter round at four positions. -/
theorem qrAt_get (x : Words) (q : Quad) (m : Fin 16) : (qrAt x q)[m] =
    if m = q.2.2.2 then (qr x[q.1] x[q.2.1] x[q.2.2.1] x[q.2.2.2]).2.2.2
    else if m = q.2.2.1 then (qr x[q.1] x[q.2.1] x[q.2.2.1] x[q.2.2.2]).2.2.1
    else if m = q.2.1 then (qr x[q.1] x[q.2.1] x[q.2.2.1] x[q.2.2.2]).2.1
    else if m = q.1 then (qr x[q.1] x[q.2.1] x[q.2.2.1] x[q.2.2.2]).1
    else x[m] := by
  simp only [qrAt, Fin.getElem_fin, Vector.getElem_set, Fin.ext_iff, eq_comm (a := m.val)]

/-- QR backwards, its last line first. -/
def qrInv (a b c d : Word) : Word × Word × Word × Word :=
  let b := rotl32 b 25 ^^^ c
  let c := c - d
  let d := rotl32 d 24 ^^^ a
  let a := a - b
  let b := rotl32 b 20 ^^^ c
  let c := c - d
  let d := rotl32 d 16 ^^^ a
  let a := a - b
  (a, b, c, d)

theorem qrInv_qr (a b c d : Word) (w : Word × Word × Word × Word) (h : qr a b c d = w) :
    qrInv w.1 w.2.1 w.2.2.1 w.2.2.2 = (a, b, c, d) := by
  subst h
  have e7 (x : Word) := rotl32_rotl32 x 7 (by omega) (by omega)
  have e8 (x : Word) := rotl32_rotl32 x 8 (by omega) (by omega)
  have e12 (x : Word) := rotl32_rotl32 x 12 (by omega) (by omega)
  have e16 (x : Word) := rotl32_rotl32 x 16 (by omega) (by omega)
  norm_num only at e7 e8 e12 e16
  simp only [qr, qrInv, e7, e8, e12, e16, BitVec.xor_assoc, BitVec.xor_self, BitVec.xor_zero, BitVec.add_sub_cancel]

theorem qr_qrInv (a b c d : Word) (w : Word × Word × Word × Word) (h : qrInv a b c d = w) :
    qr w.1 w.2.1 w.2.2.1 w.2.2.2 = (a, b, c, d) := by
  subst h
  have e7 (x : Word) := rotl32_rotl32 x 25 (by omega) (by omega)
  have e8 (x : Word) := rotl32_rotl32 x 24 (by omega) (by omega)
  have e12 (x : Word) := rotl32_rotl32 x 20 (by omega) (by omega)
  have e16 (x : Word) := rotl32_rotl32 x 16 (by omega) (by omega)
  norm_num only at e7 e8 e12 e16
  simp only [qr, qrInv, e7, e8, e12, e16, BitVec.xor_assoc, BitVec.xor_self, BitVec.xor_zero, BitVec.sub_add_cancel]

/-- Any four-word function at four positions, as `qrAt` is for QR. -/
def fnAt (f : Word → Word → Word → Word → Word × Word × Word × Word) (x : Words) (q : Quad) : Words :=
  let r := f x[q.1] x[q.2.1] x[q.2.2.1] x[q.2.2.2]
  (((x.set q.1 r.1).set q.2.1 r.2.1).set q.2.2.1 r.2.2.1).set q.2.2.2 r.2.2.2

theorem fnAt_get (f) (x : Words) (q : Quad) (m : Fin 16) : (fnAt f x q)[m] =
    if m = q.2.2.2 then (f x[q.1] x[q.2.1] x[q.2.2.1] x[q.2.2.2]).2.2.2
    else if m = q.2.2.1 then (f x[q.1] x[q.2.1] x[q.2.2.1] x[q.2.2.2]).2.2.1
    else if m = q.2.1 then (f x[q.1] x[q.2.1] x[q.2.2.1] x[q.2.2.2]).2.1
    else if m = q.1 then (f x[q.1] x[q.2.1] x[q.2.2.1] x[q.2.2.2]).1
    else x[m] := by
  simp only [fnAt, Fin.getElem_fin, Vector.getElem_set, Fin.ext_iff, eq_comm (a := m.val)]

/-- Four positions that all differ. -/
def DistinctPositions (q : Quad) : Prop := q.1 ≠ q.2.1 ∧ q.1 ≠ q.2.2.1 ∧ q.1 ≠ q.2.2.2 ∧ q.2.1 ≠ q.2.2.1 ∧ q.2.1 ≠ q.2.2.2 ∧ q.2.2.1 ≠ q.2.2.2

theorem fnAt_inv (f g)
    (hfg : ∀ a b c d (w : Word × Word × Word × Word), f a b c d = w → g w.1 w.2.1 w.2.2.1 w.2.2.2 = (a, b, c, d)) (x : Words) (q : Quad) (hq : DistinctPositions q) :
    fnAt g (fnAt f x q) q = x := by
  obtain ⟨i, j, k, l⟩ := q
  obtain ⟨hij, hik, hil, hjk, hjl, hkl⟩ := hq
  simp only at hij hik hil hjk hjl hkl
  apply words_ext_fin
  intro m
  have := hfg x[i] x[j] x[k] x[l] _ rfl
  rw [fnAt_get]
  simp only [fnAt_get f x (i, j, k, l), hij, hik, hil, hjk, hjl, hkl, if_true, if_false, this]
  split_ifs <;> simp_all

theorem columns_distinctPositions : ∀ q ∈ columns, DistinctPositions q := by simp [columns, DistinctPositions]

theorem diagonals_distinctPositions : ∀ q ∈ diagonals, DistinctPositions q := by simp [diagonals, DistinctPositions]

theorem foldl_bij (l : List Quad) (hl : ∀ q ∈ l, DistinctPositions q) : Function.Bijective fun x => l.foldl qrAt x := by
  induction l with
  | nil => exact Function.bijective_id
  | cons q qs ih =>
    have h1 : Function.Bijective fun x => qrAt x q :=
      Function.bijective_iff_has_inverse.mpr ⟨fun x => fnAt qrInv x q, fun x => fnAt_inv qr qrInv qrInv_qr x q (hl q (by simp)),
        fun x => fnAt_inv qrInv qr qr_qrInv x q (hl q (by simp))⟩
    exact (ih fun p hp => hl p (by simp [hp])).comp h1

/-- Two quadruples that share no position. -/
def ShareNoPosition (p q : Quad) : Prop := ∀ a ∈ [p.1, p.2.1, p.2.2.1, p.2.2.2], ∀ b ∈ [q.1, q.2.1, q.2.2.1, q.2.2.2], a ≠ b

/-- Quarter rounds that share no word commute. -/
theorem qrAt_comm (x : Words) (p q : Quad) (h : ShareNoPosition p q) : qrAt (qrAt x p) q = qrAt (qrAt x q) p := by
  have hpq : ∀ m ∈ [q.1, q.2.1, q.2.2.1, q.2.2.2], (qrAt x p)[m] = x[m] := by
    intro m hm
    have := fun a ha => h a ha m hm
    rw [qrAt_get, if_neg, if_neg, if_neg, if_neg] <;> intro e <;> exact this _ (by simp) e.symm
  have hqp : ∀ m ∈ [p.1, p.2.1, p.2.2.1, p.2.2.2], (qrAt x q)[m] = x[m] := by
    intro m hm
    have := fun a ha => h m hm a ha
    rw [qrAt_get, if_neg, if_neg, if_neg, if_neg] <;> intro e <;> exact this _ (by simp) e
  apply words_ext_fin
  intro m
  rw [qrAt_get (qrAt x p) q, qrAt_get (qrAt x q) p]
  simp only [hpq q.1 (by simp), hpq q.2.1 (by simp), hpq q.2.2.1 (by simp), hpq q.2.2.2 (by simp), 
    hqp p.1 (by simp), hqp p.2.1 (by simp), hqp p.2.2.1 (by simp), hqp p.2.2.2 (by simp)]
  by_cases hm : m ∈ [p.1, p.2.1, p.2.2.1, p.2.2.2]
  · have := fun b hb => h m hm b hb
    rw [if_neg (this _ (by simp)), if_neg (this _ (by simp)), if_neg (this _ (by simp)), if_neg (this _ (by simp)), qrAt_get, 
      hqp m hm]
  · simp only [List.mem_cons, List.not_mem_nil, or_false, not_or] at hm
    obtain ⟨h1, h2, h3, h4⟩ := hm
    have e : (qrAt x p)[m] = x[m] := by rw [qrAt_get, if_neg h4, if_neg h3, if_neg h2, if_neg h1]
    rw [e, if_neg h4, if_neg h3, if_neg h2, if_neg h1, qrAt_get]

theorem order_indep (l : List Quad) (hl : ∀ p ∈ l, ∀ q ∈ l, p ≠ q → ShareNoPosition p q) (o : List Quad) (h : o.Perm l)
    (x : Words) : o.foldl qrAt x = l.foldl qrAt x := by
  refine h.foldl_eq' ?_ x
  intro p hp q hq z
  by_cases e : p = q
  · rw [e]
  · exact qrAt_comm _ _ _ (hl p (h.mem_iff.mp hp) q (h.mem_iff.mp hq) e)

end Sys2Proof.Machine
end

