-- ==== Sys2Proof/Laws/Port.lean ====
section
/-! SUPPORT. The command port: which command comes next, and what accepting or issuing one does to the queues (20_memory.md R60, R61). -/

namespace Sys2Proof.Machine

/-- The next command depends on the queues and the schedule's index alone. -/
theorem nextCommand_congr (s t : State) (hq : t.queues = s.queues) (ht : t.turn = s.turn) : t.nextCommand = s.nextCommand := by
  simp only [State.nextCommand, State.nextHost, State.queueOf, hq, ht]

/-- The next command is the first of its host's queue. -/
theorem nextCommand_some {s : State} {h : Nat} {t : Transaction} (hn : s.nextCommand = some (h, t)) :
    s.nextHost = some h ∧ ∃ ts, s.queueOf h = t :: ts := by
  unfold State.nextCommand at hn
  split at hn
  · cases hn
  · rename_i h' hh
    split at hn
    · cases hn
    · rename_i t' ts hq
      cases hn
      exact ⟨hh, ts, hq⟩

theorem nextCommand_of_waiting (s : State) (h : Nat) (hh : s.nextHost = some h) (t : Transaction) (ts : List Transaction)
   (hq : s.queueOf h = t :: ts) : s.nextCommand = some (h, t) := by
  simp [State.nextCommand, hh, hq]

/-- Accepting takes the first command of one queue. -/
theorem queueOf_accept (s : State) (h h' : Nat) :
    (s.accept h).queueOf h' = if h' = h then (s.queueOf h).tail else s.queueOf h' := by
  simp only [State.queueOf, accept_queues, List.getD_eq_getElem?_getD, List.getElem?_set]
  by_cases e : h = h'
  · subst e
    simp
    split
    · rfl
    · rename_i hl
      simp at hl
      simp [hl]
  · simp [e, Ne.symm e]

theorem step_of_nextCommand {s : State} {h : Nat} {t : Transaction} (hr : s.resetIn = none) (hn : s.nextCommand = some (h, t)) :
    step s = deliverTo h (perform t (s.accept h)) := by
  simp [step, hr, hn]

/-- No command writes the port, and each answers with the status that it writes. -/
theorem exec_port {i : Instr} {s u : State} (h : exec i s = .next u) :
    s.SamePort u ∧ ∃ out, u.response = some ⟨u.ctx.STATUS, out⟩ := by
  obtain ⟨-, he⟩ | ⟨-, he⟩ | ⟨code, -, he⟩ := exec_cases i s <;> rw [he] at h <;> cases h <;>
    exact ⟨⟨rfl, rfl, rfl, rfl⟩, _, rfl⟩

/-- The same for a transaction. -/
theorem perform_port {t : Transaction} {s u : State} (h : perform t s = .next u) :
    s.SamePort u ∧ ∃ out, u.response = some ⟨u.ctx.STATUS, out⟩ := by
  obtain ⟨op, -, hp⟩ | ⟨-, hp⟩ := perform_cases t s <;> rw [hp] at h
  · exact exec_port h
  · cases h; exact ⟨⟨rfl, rfl, rfl, rfl⟩, _, rfl⟩

/-- A host is ready exactly when its queue is not empty. -/
theorem mem_readyFrom (n h : Nat) (qs : List (List Transaction)) :
    h ∈ readyFrom n qs ↔ ∃ k, h = n + k ∧ qs.getD k [] ≠ [] := by
  induction qs generalizing n with
  | nil => simp [readyFrom]
  | cons q qs ih =>
    cases q with
    | nil =>
      rw [readyFrom, ih]
      constructor
      · rintro ⟨k, rfl, hk⟩; exact ⟨k + 1, by omega, by simpa using hk⟩
      · rintro ⟨k, rfl, hk⟩
        cases k with
        | zero => simp at hk
        | succ k => exact ⟨k, by omega, by simpa using hk⟩
    | cons t ts =>
      rw [readyFrom, List.mem_cons, ih]
      constructor
      · rintro (rfl | ⟨k, rfl, hk⟩)
        · exact ⟨0, by simp, by simp⟩
        · exact ⟨k + 1, by omega, by simpa using hk⟩
      · rintro ⟨k, rfl, hk⟩
        cases k with
        | zero => left; simp
        | succ k => right; exact ⟨k, by omega, by simpa using hk⟩

/-- Whatever number the schedule holds, the host chosen is one of those that are ready. -/
theorem chooseHost_mem (n : Nat) (l : List Nat) (hl : l ≠ []) : ∃ h ∈ l, chooseHost n l = some h := by
  match l with
  | [h] => exact ⟨h, by simp, rfl⟩
  | a :: b :: hs =>
    have hlt : Config.hostSchedule n % (a :: b :: hs).length < (a :: b :: hs).length := Nat.mod_lt _ (by simp)
    refine ⟨_, List.getElem_mem hlt, ?_⟩
    rw [chooseHost, List.getElem?_eq_getElem hlt]

theorem readyFrom_set (n k : Nat) (qs : List (List Transaction)) (q : List Transaction) (hk : qs.getD k [] ≠ []) (hq : q ≠ []) :
    readyFrom n (qs.set k q) = readyFrom n qs := by
  induction qs generalizing n k with
  | nil => simp at hk
  | cons p ps ih =>
    cases k with
    | zero =>
      obtain ⟨a, as, rfl⟩ := List.exists_cons_of_ne_nil hq
      obtain ⟨b, bs, rfl⟩ := List.exists_cons_of_ne_nil (by simpa using hk : p ≠ [])
      simp [readyFrom]
    | succ k =>
      cases p <;> simp [readyFrom, ih _ k (by simpa using hk)]

theorem nextHost_waiting {s : State} {h : Nat} (hh : s.nextHost = some h) : s.queueOf h ≠ [] := by
  have hne : readyFrom 0 s.queues ≠ [] := by
    intro e; simp [State.nextHost, e, chooseHost] at hh
  obtain ⟨h', hm', hc⟩ := chooseHost_mem s.turn _ hne
  obtain ⟨k, hk, hqk⟩ := (mem_readyFrom 0 h' s.queues).mp hm'
  obtain rfl : h' = k := by omega
  rw [State.nextHost, hc] at hh
  cases hh
  exact hqk

/-- A command put in front is the next one, and accepting it leaves the queues of before. -/
theorem nextHost_issueFirst (s : State) (t : Transaction) : ∃ h ts, (s.issueFirst t).nextHost = some h ∧
    (s.issueFirst t).queueOf h = t :: ts ∧ ∀ h', ((s.issueFirst t).accept h).queueOf h' = s.queueOf h' := by
  cases hh : s.nextHost with
  | some h =>
    have hw := nextHost_waiting hh
    have hlt : h < s.queues.length := by
      by_contra hc
      exact hw (by simp [State.queueOf, Nat.not_lt.mp hc])
    have e : s.issueFirst t = { s with queues := s.queues.set h (t :: s.queueOf h) } := by
      unfold State.issueFirst; rw [hh]
    have hq : (s.issueFirst t).queueOf h = t :: s.queueOf h := by
      rw [e]; simp [State.queueOf, hlt]
    refine ⟨h, _, ?_, hq, ?_⟩
    · rw [e, ← hh]
      simp only [State.nextHost]
      rw [readyFrom_set 0 h s.queues _ hw (by simp)]
    · intro h'
      rw [queueOf_accept, hq]
      by_cases hc : h' = h
      · simp [hc]
      · rw [if_neg hc, e]
        simp [State.queueOf, Ne.symm hc]
  | none =>
    have hr : readyFrom 0 s.queues = [] := by
      by_contra hne
      obtain ⟨h, -, hc⟩ := chooseHost_mem s.turn _ hne
      rw [State.nextHost, hc] at hh; cases hh
    cases hqs : s.queues with
    | nil =>
      have e : s.issueFirst t = { s with queues := [[t]] } := by
        unfold State.issueFirst; rw [hh, hqs]
      refine ⟨0, [], by rw [e]; rfl, by rw [e]; rfl, fun h' => ?_⟩
      rw [queueOf_accept, e]
      cases h' <;> simp [State.queueOf, hqs]
    | cons q qs =>
      have e : s.issueFirst t = { s with queues := (t :: q) :: qs } := by
        unfold State.issueFirst; rw [hh, hqs]
      have hall : ∀ k, s.queues.getD k [] = [] := by
        intro k
        by_contra hk
        have := (mem_readyFrom 0 k s.queues).mpr ⟨k, by simp, hk⟩
        rw [hr] at this; simp at this
      have hrest : readyFrom 1 qs = [] := by
        apply List.eq_nil_iff_forall_not_mem.mpr
        intro a ha
        obtain ⟨k, -, hk⟩ := (mem_readyFrom 1 a qs).mp ha
        have := hall (k + 1)
        rw [hqs] at this
        exact hk (by simpa using this)
      refine ⟨0, q, by rw [e]; simp [State.nextHost, readyFrom, hrest, chooseHost], by rw [e]; rfl, fun h' => ?_⟩
      rw [queueOf_accept, e]
      cases h' <;> simp [State.queueOf, hqs]

end Sys2Proof.Machine
end

