-- ==== Sys2Proof/Tests/Slice0.lean ====
section
/-! SUPPORT. Tests. Expected values come from the spec: the vectors V… and programs P… of 95_test_vectors.md, the encoding of
30_encoding.md, or the sentence that a test names. After them, for each statement with hypotheses, a `witness_` theorem that meets them. -/

namespace Sys2Proof.Tests

open Sys2Proof Sys2Proof.Machine

/-! ### Helpers -/

/-- `len` bytes as the spec's vectors print them: hexadecimal, byte 0 first. -/
def hex (n len : Nat) : List Byte := (List.range len).map fun k => BitVec.ofNat 8 (n / 256 ^ (len - 1 - k))

/-- The state that an outcome leaves. -/
def after : Host.Outcome State Fault Refusal → Option State
  | .next s => some s
  | _       => none

/-- `zero(n)` (R82). -/
def zero (n : Nat) : List Byte := List.replicate n 0

/-- The context after `INIT key=zero(32)` (V10). -/
def keyedContext : Context := { initContext (zero 32) Context.reset with STATUS := .ok }

/-- A block with that context and an idle port. -/
def keyed : State := { State.reset with ctx := keyedContext }

/-- The context after a `SEEK_OFFSET nonce=0, offset=70` on it (V24): MODE = 0, CUR = 6. -/
def insideContext : Context := { seekOffsetContext 0 70 keyedContext with STATUS := .ok }

/-- A block in the middle of a block of keystream. -/
def inside : State := { State.reset with ctx := insideContext }

/-- The NONCE16 of V21. -/
def v21Nonce : Vector Byte 16 := ⟨#[1, 0, 0, 0, 0, 0, 0, 9, 0, 0, 0, 0x4a, 0, 0, 0, 0], rfl⟩

/-- A block whose MODE is 1. -/
def nonceMode : State := { State.reset with ctx := { seekNonceContext v21Nonce keyedContext with STATUS := .ok } }

/-! ### Well-formedness: an ill-formed term for each check -/

theorem init_wellFormed_iff (key : List Byte) : (Instr.init key).wellFormed = true ↔ key.length < 2 ^ 64 := by
  simp [Instr.wellFormed]

theorem transaction_wellFormed_iff (w : Word) (f : Fields) :
    ({ CMD := w, fields := f } : Transaction).wellFormed = true ↔ f.KEY.length < 2 ^ 64 := by
  simp [Transaction.wellFormed]

/-- A key of 2^64 bytes: one more than a KEY may have (R74). -/
theorem test_wellFormed_refuses_a_key_of_two_to_the_64 : ¬ (Instr.init (List.replicate (2 ^ 64) 0)).wellFormed = true := by
  rw [init_wellFormed_iff, List.length_replicate]; exact Nat.lt_irrefl _

theorem test_wellFormed_refuses_a_transaction_with_that_key :
    ¬ ({ CMD := 1, fields := { Fields.none with KEY := List.replicate (2 ^ 64) 0 } } : Transaction).wellFormed = true := by
  rw [transaction_wellFormed_iff, List.length_replicate]; exact Nat.lt_irrefl _

/-! ### Decoding: each command's word bit by bit, RSVD | OP (R71, R72) -/

/-- Some operand fields, all of them filled. -/
def someFields : Fields :=
  { KEY := [1, 2], NONCE16 := v21Nonce, NONCE64 := 3, BLOCK64 := 4, OFFSET64 := 5, LEN := 6, IN := [7], OUT_CAP := 8 }

theorem test_decode_init :
    decode { CMD := 0b0000000000000000000000000000_0001, fields := someFields } = .command (.init [1, 2]) := by decide

theorem test_decode_seekNonce :
    decode { CMD := 0b0000000000000000000000000000_0010, fields := someFields } = .command (.seekNonce v21Nonce) := by decide

theorem test_decode_seekBlock :
    decode { CMD := 0b0000000000000000000000000000_0011, fields := someFields } = .command (.seekBlock 3 4) := by decide

theorem test_decode_seekOffset :
    decode { CMD := 0b0000000000000000000000000000_0100, fields := someFields } = .command (.seekOffset 3 5) := by decide

theorem test_decode_update :
    decode { CMD := 0b0000000000000000000000000000_0101, fields := someFields } = .command (.update 6 [7] 8) := by decide

theorem test_decode_wipe :
    decode { CMD := 0b0000000000000000000000000000_0110, fields := someFields } = .command .wipe := by decide

/-- V50's words: OP = 0, OP = 7, OP = 15, and RSVD ≠ 0 in its lowest, its highest and all its bits. -/
theorem test_decode_illegal :
    decodeOp 0x00000000 = none ∧ decodeOp 0x00000007 = none ∧ decodeOp 0x0000000f = none ∧
    decodeOp 0x00000011 = none ∧ decodeOp 0x80000005 = none ∧ decodeOp 0xffffffff = none := by decide

/-- The table's words with operand words of zeros, and a number that is no command. -/
theorem test_decodeTableWord :
    decodeTableWord 32 1 = some (.init (zero 32)) ∧ decodeTableWord 32 2 = some (.seekNonce (Vector.replicate 16 0)) ∧
    decodeTableWord 32 3 = some (.seekBlock 0 0) ∧ decodeTableWord 32 4 = some (.seekOffset 0 0) ∧
    decodeTableWord 32 5 = some (.update 0 [] 0) ∧ decodeTableWord 32 6 = some .wipe ∧ decodeTableWord 32 7 = none := by
  decide

/-! ### The permutation core -/

/-- V1 and V5. -/
theorem test_qr :
    qr 0x11111111 0x01020304 0x9b8d6f43 0x01234567 = (0xea2a92f4, 0xcb1cf8ce, 0x4581472e, 0x5881c4bb) ∧
    qr 0xffffffff 0xffffffff 0xffffffff 0xffffffff = (0xf0000ffd, 0x88790878, 0x0110fdef, 0x010ffdf0) := by decide

/-- V6: one double round of the INIT state. -/
theorem test_doubleRound : (doubleRound keyedContext.S).toList =
    [0xe45fd249, 0x1bb820a6, 0xe31a88ea, 0xe667a9fe, 0x2a3bf673, 0x86bf4098, 0x460b500a, 0xfa169886, 0x538dca0e, 0x0c439641,
      0x00fa16bc, 0x8a08812a, 0x6bbf8b09, 0xc33013d6, 0xbb9f9849, 0x87c62165] := by decide +kernel

/-- V7. -/
theorem test_block : (blockFn keyedContext.S).toList =
    hex 0x76b8e0ada0f13d90405d6ae55386bd28bdd219b8a08ded1aa836efcc8b770dc7da41597c5157488d7724e03fb8d84a376a43b8f41518a11cc387b669b2ee6586
      64 := by decide +kernel

/-! ### The commands, one step each -/

/-- V11. -/
theorem test_init : (after (exec (.init (seqBytes 32)) State.reset)).map (fun s => s.ctx.S.toList.drop 3) =
    some [0x6b206574, 0x03020100, 0x07060504, 0x0b0a0908, 0x0f0e0d0c, 0x13121110, 0x17161514, 0x1b1a1918, 0x1f1e1d1c, 0, 0, 0, 0] := by
  decide

/-- V16: a 31-byte key on a keyed context. -/
theorem test_init_short_key : after (exec (.init (zero 31)) inside) = some { inside with
    ctx := { insideContext with STATUS := .invalidArgument }, response := some ⟨.invalidArgument, []⟩ } := by decide +kernel

/-- V21. -/
theorem test_seekNonce : (after (exec (.seekNonce v21Nonce) keyed)).map (fun s => (s.ctx.S.toList.drop 12, s.ctx.CUR, s.ctx.MODE)) =
    some ([0x00000001, 0x09000000, 0x4a000000, 0x00000000], 64, .nonce128) := by decide

/-- V43. -/
theorem test_seekNonce_not_keyed : (after (exec (.seekNonce v21Nonce) State.reset)).map (·.ctx) =
    some { Context.reset with STATUS := .notKeyed } := by decide

/-- V22, first half. -/
theorem test_seekBlock : (after (exec (.seekBlock 0x0123456789abcdef 0xfffffffffffffffe) nonceMode)).map
    (fun s => (s.ctx.S.toList.drop 12, s.ctx.CUR, s.ctx.MODE)) =
    some ([0xfffffffe, 0xffffffff, 0x89abcdef, 0x01234567], 64, .block) := by decide

/-- V24. -/
theorem test_seekOffset : (after (exec (.seekOffset 0 70) keyed)).map
    (fun s => (s.ctx.S.toList.drop 12, s.ctx.CUR, s.ctx.KS.toList.take 16)) =
    some ([2, 0, 0, 0], 6, hex 0x9f07e7be5551387a98ba977c732d080d 16) := by decide +kernel

/-- V25. -/
theorem test_seekOffset_last : (after (exec (.seekOffset 5 0xffffffffffffffff) keyed)).map
    (fun s => (s.ctx.S.toList.drop 12, s.ctx.CUR)) = some ([0, 0x04000000, 5, 0], 63) := by decide +kernel

/-- V31. -/
theorem test_update : (after (exec (.update 70 (zero 70) 70) keyed)).map (fun s => (s.out.drop 60, s.ctx.S.toList.drop 12, s.ctx.CUR)) =
    some (hex 0xb2ee65869f07e7be5551 10, [2, 0, 0, 0], 6) := by decide +kernel

/-- V33's UPDATE: sizes that disagree do not matter when LEN = 0. -/
theorem test_update_zero_length : after (exec (.update 0 [1, 2, 3] 9) inside) =
    some { inside with response := some ⟨.ok, []⟩ } := by decide +kernel

/-- V23: the counter wraps in MODE = 1, from all ones to zero, while one byte is put out. -/
theorem test_counter_wraps : (after (exec (.update 1 [0] 1) { keyed with
    ctx := seekNonceContext (Vector.replicate 16 0xff) keyedContext })).map (fun s => (s.out, s.ctx.S.toList.drop 12, s.ctx.CUR)) =
    some ([0x94], [0, 0, 0, 0], 1) := by decide +kernel

/-- V20: the carry stops at word 13 in MODE = 0, and runs on in MODE = 1. -/
theorem test_ctrInc :
    (ctrInc .block (setCounterRegion keyedContext.S 0xffffffff 0xffffffff 5 6)).toList.drop 12 = [0, 0, 5, 6] ∧
    (ctrInc .nonce128 (setCounterRegion keyedContext.S 0xffffffff 0xffffffff 0xffffffff 0)).toList.drop 12 = [0, 0, 0, 1] := by
  decide

/-- V40. -/
theorem test_wipe : (after (exec .wipe inside)).map (·.ctx) = some Context.reset := by decide +kernel

/-- P5: the CRYPT_OFFSET pseudo-command. -/
theorem test_cryptOffset : (match (OneShot.cryptOffset (seqBytes 32) 3 64 [0x00, 0x11, 0x22, 0x33]).run State.reset with
    | .next r => some (r.status, r.out, r.block.ctx)
    | _       => none) = some (.ok, [0x57, 0x62, 0x56, 0x49], Context.reset) := by decide +kernel

/-! ### Fetching and stepping -/

/-- From reset, the table's INIT word placed as the next command runs as INIT (V10), and its response is delivered. -/
theorem test_withFetchWord : (after (step (State.reset.withFetchWord 32 1))).map (fun s => (s.ctx, s.delivered)) =
    some (keyedContext, [⟨0, .ok, []⟩]) := by decide

/-- V50: an illegal word as the next command. -/
theorem test_withFetchWord_illegal : (after (step (keyed.withFetchWord 32 0x80000005))).map (·.ctx) =
    some { keyedContext with STATUS := .illegalCommand } := by decide

/-! ### The assembly syntax (R82 to R86) -/

theorem test_assemble_update : assemble "UPDATE in=\"010203\"".toList =
    .ok (.command { CMD := 5, fields := { Fields.none with LEN := 3, IN := [1, 2, 3], OUT_CAP := 3 } }) := by decide

theorem test_assemble_case_and_comment : assemble " init KEY=seq(2) ; a short key is passed on".toList =
    .ok (.command { CMD := 1, fields := { Fields.none with KEY := [0, 1] } }) := by decide

theorem test_assemble_word : assemble ".word 0x00000010".toList = .ok (.command { CMD := 0x10, fields := Fields.none }) := by decide

/-- A raw word of UPDATE has UPDATE's defaults (R83, R84). -/
theorem test_assemble_word_update : assemble ".word 0x00000005 in=\"0102\"".toList =
    .ok (.command { CMD := 5, fields := { Fields.none with LEN := 2, IN := [1, 2], OUT_CAP := 2 } }) := by decide

/-- A raw word of SEEK_NONCE must have its nonce (R82, R84). -/
theorem test_assemble_word_refused : assemble ".word 0x00000002".toList = .error .missingOperand := by decide

theorem test_assemble_number_too_wide : assemble "SEEK_BLOCK nonce=0x11111111111111111, block=3".toList = .error .numberTooWide := by
  decide

theorem test_assemble_cryptOffset : assemble "CRYPT_OFFSET key=seq(2), nonce=3, offset=64, in=\"0011\"".toList =
    .ok (.oneShot (.cryptOffset [0, 1] 3 64 [0x00, 0x11])) := by decide

/-! ### Witnesses: concrete states and operands that meet the statements' hypotheses -/

theorem keyed_inv : keyedContext.Inv :=
  inv_setStatus _ (inv_of_keyed rfl (initWords_constants _) (by decide) fun h => absurd h (by decide))

theorem inside_inv : insideContext.Inv := inv_setStatus _ (inv_seek (i := .seekOffset 0 70) rfl rfl keyed_inv)

theorem nonceMode_inv : nonceMode.ctx.Inv := inv_setStatus _ (inv_seek (i := .seekNonce v21Nonce) rfl rfl keyed_inv)

/-- A block with an illegal word waiting at host 0. -/
def illegalWaiting : State := { inside with queues := [[{ CMD := 0x11, fields := someFields }]] }

/-- A block with one command waiting at host 1, and a reset of each kind before it. -/
def oneWaiting (r : Option ResetArrival) : State := { inside with queues := [[], [encode .wipe]], resetIn := r }

theorem witness_ResetAbandonsTheCommandInProgress :
    (oneWaiting (some .betweenCommands)).resetIn = some .betweenCommands ∧
    (oneWaiting (some .duringCommand)).resetIn = some .duringCommand ∧
    (oneWaiting (some .duringCommand)).nextCommand = some (1, encode .wipe) ∧
    ({ inside with resetIn := some .duringCommand } : State).nextCommand = none := ⟨rfl, rfl, rfl, rfl⟩

/-- The last register of each range and the first of the next. -/
theorem witness_RegisterMapPacksTheContext :
    insideContext.register 15 = some insideContext.S[15] ∧ insideContext.register 16 = some 0xbee7079f ∧
    (insideContext.register 31).isSome ∧ insideContext.register 32 = some 0x106 ∧ insideContext.register 33 = some 0 ∧
    insideContext.register 34 = none := by decide +kernel

theorem witness_EachHostsCommandsGoInOrder :
    (oneWaiting none).resetIn = none ∧ (oneWaiting none).nextCommand = some (1, encode .wipe) := ⟨rfl, rfl⟩

/-- Two hosts wait, so the choice is the free schedule's. -/
theorem witness_SomeWaitingCommandIsAccepted :
    ∃ h, ({ inside with queues := [[encode .wipe], [encode (.init [])]] } : State).queueOf h ≠ [] := ⟨1, by decide +kernel⟩

/-- The first and last reserved OP, and the one that lies apart. -/
theorem witness_TableWordsDecodeToTheirCommands :
    (0x00000000 : Word).toNat % 16 = 0 ∧ 7 ≤ (0x00000007 : Word).toNat % 16 ∧ 7 ≤ (0x0000000f : Word).toNat % 16 := by decide

theorem witness_EachCommandHasExactlyOneWord : ∀ op, decodeOp 0x00000011 ≠ some op := by
  intro op; cases op <;> decide

theorem witness_EncodingIsTheOneTransactionThatDecodesBack :
    (Instr.init []).wellFormed = true ∧ (Instr.init (List.replicate (2 ^ 64 - 1) 0)).wellFormed = true ∧
    (Instr.seekNonce v21Nonce).wellFormed = true ∧ (Instr.seekBlock 1 2).wellFormed = true ∧
    (Instr.seekOffset 1 2).wellFormed = true ∧ (Instr.update 1 [] 9).wellFormed = true ∧ Instr.wipe.wellFormed = true := by
  refine ⟨rfl, ?_, rfl, rfl, rfl, rfl, rfl⟩
  rw [init_wellFormed_iff, List.length_replicate]
  exact Nat.sub_lt (Nat.two_pow_pos _) Nat.one_pos

/-- RSVD ≠ 0 with a good OP; OP = 0; OP = 7 and OP = 15. -/
theorem witness_IllegalWordsChangeOnlyStatus :
    (0x00000011 : Word).toNat / 16 ≠ 0 ∧ (0x00000000 : Word).toNat % 16 = 0 ∧ 7 ≤ (0x00000007 : Word).toNat % 16 ∧
    7 ≤ (0x0000000f : Word).toNat % 16 := by decide

/-- With a reset and a command absent, the block idle inside a block of keystream. -/
theorem witness_EveryStepGoesOn : inside.resetIn = none ∧ inside.nextCommand = none := ⟨rfl, rfl⟩

/-- A command waiting, and an illegal word waiting. -/
theorem witness_StepRunsTheDecodedCommand :
    ((oneWaiting none).resetIn = none ∧ (oneWaiting none).nextCommand = some (1, encode .wipe) ∧
      decode (encode .wipe) = .command .wipe) ∧
    (illegalWaiting.resetIn = none ∧ illegalWaiting.nextCommand = some (0, { CMD := 0x11, fields := someFields }) ∧
      ∀ i, decode { CMD := 0x11, fields := someFields } ≠ .command i) :=
  ⟨⟨rfl, rfl, rfl⟩, rfl, rfl, fun _ h => by cases h⟩

theorem witness_FetchedTableWordIsTheNextCommand :
    ∀ w ∈ [1, 2, 3, 4, 5, 6], ∃ i, decodeTableWord 32 w = some i := by
  simp only [List.forall_mem_cons]
  exact ⟨⟨_, rfl⟩, ⟨_, rfl⟩, ⟨_, rfl⟩, ⟨_, rfl⟩, ⟨_, rfl⟩, ⟨_, rfl⟩, by simp⟩

/-- Keys of 31, 32 and 33 bytes. -/
theorem witness_InitLoadsAKeyOfThirtyTwoBytes :
    (zero 31).length ≠ 32 ∧ (zero 32).length = 32 ∧ (zero 33).length ≠ 32 := by decide

theorem witness_InitForgetsTheOldContext : (zero 32).length = 32 := by decide

theorem witness_SeekNonceWritesTheWholeCounterRegion : keyed.ctx.KEYED = true ∧ State.reset.ctx.KEYED = false ∧
    ∀ k (_ : k < 16), (Vector.replicate 16 0xff : Vector Byte 16)[k] = 0xff := ⟨rfl, rfl, by simp⟩

theorem witness_SeekBlockSplitsCounterAndNonce : inside.ctx.KEYED = true ∧ State.reset.ctx.KEYED = false ∧
    (0xffffffffffffffff : U64).toNat = 2 ^ 64 - 1 := ⟨rfl, rfl, rfl⟩

/-- The first and the last offset of a block, and the two on either side. -/
theorem witness_SeekOffsetLandsInsideItsBlock :
    keyed.ctx.KEYED = true ∧ State.reset.ctx.KEYED = false ∧ (64 : U64).toNat % 64 = 0 ∧ 0 < (65 : U64).toNat % 64 ∧
    0 < (127 : U64).toNat % 64 ∧ (128 : U64).toNat % 64 = 0 := by decide

theorem witness_SeeksKeepTheKeyAndPutOutNothing :
    (Op.isSeek (Instr.op (.seekNonce v21Nonce)) = true ∧ ∃ u, exec (.seekNonce v21Nonce) State.reset = .next u) ∧
    (Op.isSeek (Instr.op (.seekBlock 5 9)) = true ∧ ∃ u, exec (.seekBlock 5 9) nonceMode = .next u) ∧
    (Op.isSeek (Instr.op (.seekOffset 5 70)) = true ∧ (∃ u, exec (.seekOffset 5 70) inside = .next u) ∧
      ∃ w, exec (.seekOffset 5 70) nonceMode = .next w) ∧
    State.reset.ctx.KEYED = false ∧ inside.ctx.KEYED = true ∧ nonceMode.ctx.KEYED = true ∧
    (Instr.op (.seekBlock 5 9) ≠ .seekOffset) ∧ (64 : U64).toNat % 64 = 0 ∧ (70 : U64).toNat % 64 ≠ 0 :=
  ⟨⟨rfl, _, rfl⟩, ⟨rfl, _, rfl⟩, ⟨rfl, ⟨_, rfl⟩, _, rfl⟩, rfl, rfl, rfl, by decide, by decide, by decide⟩

/-- The last seek lands inside a block, so that KS counts too. -/
theorem witness_TheLastSeekDecides : ∃ u v w, Op.isSeek (Instr.op (.seekNonce v21Nonce)) = true ∧
    Op.isSeek (Instr.op (.seekOffset 0 70)) = true ∧ inside.ctx.KEYED = true ∧ exec (.seekNonce v21Nonce) inside = .next u ∧
    exec (.seekOffset 0 70) u = .next v ∧ exec (.seekOffset 0 70) inside = .next w ∧ v.ctx.CUR.val < 64 :=
  ⟨_, _, _, rfl, rfl, rfl, rfl, rfl, rfl, (by decide : 6 < 64)⟩

/-- The largest block that an offset can name. -/
theorem witness_SeekOffsetToABlockIsSeekBlock :
    (0x03ffffffffffffff : U64).toNat < 2 ^ 58 ∧ (0xffffffffffffffc0 : U64).toNat = 64 * (0x03ffffffffffffff : U64).toNat ∧
    keyed.ctx.KEYED = true := ⟨by decide, by decide, rfl⟩

/-- B = 0x0900000000000001 and N = 0x4a000000, whose bytes are V21's nonce. -/
theorem witness_SeekNonceAndSeekBlockAgreeOnTheWords : keyed.ctx.KEYED = true ∧
    ∀ k (_ : k < 8), v21Nonce[k].toNat = (0x0900000000000001 : U64).toNat / 2 ^ (8 * k) % 2 ^ 8 ∧
      v21Nonce[8 + k].toNat = (0x000000004a000000 : U64).toNat / 2 ^ (8 * k) % 2 ^ 8 := by decide

theorem witness_PermutationIsTenDoubleRounds :
    ([3, 4, 9, 14] : List (Fin 16)).Nodup ∧ (15 : Fin 16) ∉ ([3, 4, 9, 14] : List (Fin 16)) := by decide

theorem witness_RoundsDoNotDependOnTheirOrder : columns.reverse.Perm columns ∧ diagonals.reverse.Perm diagonals :=
  ⟨List.reverse_perm _, List.reverse_perm _⟩

/-- The last byte of the block. -/
theorem witness_BlockIsTheFeedForwardLittleEndian : 15 < 16 ∧ 3 < 4 ∧ 4 * 15 + 3 = 63 := by decide

/-- Each check failing alone, and the zero length beside sizes that disagree. -/
theorem witness_UpdateChecksInOrder :
    State.reset.ctx.KEYED = false ∧ keyed.ctx.KEYED = true ∧ (0 : U64) = 0 ∧ (5 : U64) ≠ 0 ∧
    ((zero 3).length ≠ (5 : U64).toNat) ∧ ((zero 5).length = (5 : U64).toNat ∧ (4 : U64) ≠ 5) := by decide

/-- On `inside` (CUR = 6) an UPDATE of 58 bytes generates no block and one of 59 bytes does. -/
theorem witness_UpdateCompletesAndCountsItsBlocks :
    inside.ctx.KEYED = true ∧ inside.ctx.MODE = .block ∧ (58 : U64) ≠ 0 ∧ (zero 58).length = (58 : U64).toNat ∧
    genCount inside.ctx.CUR (58 : U64).toNat = 0 ∧ genCount inside.ctx.CUR (59 : U64).toNat = 1 ∧
    nonceMode.ctx.KEYED = true ∧ nonceMode.ctx.MODE = .nonce128 := by decide +kernel

/-- In a block of keystream; at its end with one whole block, with one byte and with 63. -/
theorem witness_UpdateTakesItsThreeSteps :
    (inside.ctx.KEYED = true ∧ inside.ctx.CUR.val < 64 ∧ 58 = min (zero 70).length (64 - inside.ctx.CUR.val)) ∧
    (keyed.ctx.KEYED = true ∧ keyed.ctx.CUR.val = 64 ∧ 64 ≤ (zero 64).length) ∧
    (0 < (zero 1).length ∧ (zero 1).length < 64 ∧ 0 < (zero 63).length ∧ (zero 63).length < 64) := by decide +kernel

/-- The longest that still fits, from CUR = 6 and from CUR = 63. -/
theorem witness_UpdateInsideTheBufferedBlock :
    inside.ctx.KEYED = true ∧ (58 : U64) ≠ 0 ∧ (zero 58).length = (58 : U64).toNat ∧
    inside.ctx.CUR.val + (58 : U64).toNat ≤ 64 ∧
    ({ insideContext with CUR := 63 } : Context).CUR.val + (1 : U64).toNat ≤ 64 := by decide +kernel

/-- LEN = 1 and LEN = 64. -/
theorem witness_UpdateOfOneFreshBlock :
    keyed.ctx.KEYED = true ∧ keyed.ctx.CUR.val = 64 ∧ (1 : U64) ≠ 0 ∧ (64 : U64) ≠ 0 ∧ (1 : U64).toNat ≤ 64 ∧
    (64 : U64).toNat ≤ 64 ∧ (zero 64).length = (64 : U64).toNat := by decide

/-- In both modes, with KS partly used and used up. -/
theorem witness_LawOfUpdate :
    (inside.ctx.Inv ∧ inside.ctx.KEYED = true ∧ inside.ctx.CUR.val < 64 ∧ inside.ctx.MODE = .block) ∧
    (nonceMode.ctx.Inv ∧ nonceMode.ctx.KEYED = true ∧ nonceMode.ctx.MODE = .nonce128) ∧
    (70 : U64) ≠ 0 ∧ (zero 70).length = (70 : U64).toNat :=
  ⟨⟨inside_inv, rfl, (by decide : 6 < 64), rfl⟩, ⟨nonceMode_inv, rfl, rfl⟩, by decide, by decide⟩

/-- V32's three chunks with an empty one among them. -/
theorem witness_ChunksStreamLikeOneMessage :
    keyed.ctx.KEYED = true ∧ [zero 3, [], zero 61, zero 6].flatten.length < 2 ^ 64 := ⟨rfl, by decide⟩

theorem witness_UpdateTwiceGivesTheMessageBack :
    (zero 32).length = 32 ∧ Op.isSeek (Instr.op (.seekNonce v21Nonce)) = true ∧ (zero 114).length < 2 ^ 64 := by decide

/-- 70 = 1·64 + 6, and the first and last byte of a block. -/
theorem witness_OffsetSeekIsBlockSeekAndDiscard :
    keyed.ctx.KEYED = true ∧ ((zero 6).length < 64 ∧ (70 : U64).toNat = 64 * (1 : U64).toNat + (zero 6).length) ∧
    ((zero 0).length < 64 ∧ (64 : U64).toNat = 64 * (1 : U64).toNat + (zero 0).length) ∧
    ((zero 63).length < 64 ∧ (127 : U64).toNat = 64 * (1 : U64).toNat + (zero 63).length) ∧ (zero 20).length < 2 ^ 64 := by
  decide

theorem witness_OutputByteDependsOnItsInputByteOnly :
    keyed.ctx.KEYED = true ∧ [1, 2, (3 : Byte)].length = [7, 2, (9 : Byte)].length ∧ [1, 2, (3 : Byte)].length < 2 ^ 64 ∧
    1 < [1, 2, (3 : Byte)].length ∧ [1, 2, (3 : Byte)][1]? = [7, 2, (9 : Byte)][1]? := by decide

/-- Ranges that adjoin, and ranges 3 bytes apart. -/
theorem witness_InstancesAtDisjointOffsetsMakeOneStream :
    (zero 32).length = 32 ∧ (107 : U64).toNat = (100 : U64).toNat + (zero 7).length + (zero 0).length ∧
    (110 : U64).toNat = (100 : U64).toNat + (zero 7).length + (zero 3).length ∧
    (zero 7).length + (zero 3).length + (zero 80).length < 2 ^ 64 := by decide

theorem witness_PositionAfterInitAndSeeks : (zero 32).length = 32 ∧ keyed.ctx.KEYED = true := by decide

theorem witness_OnlyInitAndWipeWorkAfterWipe :
    State.reset.ctx.KEYED = false ∧ Op.needsKey (Instr.op (.seekNonce v21Nonce)) = true ∧
    Op.needsKey (Instr.op (.seekBlock 1 2)) = true ∧ Op.needsKey (Instr.op (.seekOffset 1 2)) = true ∧
    Op.needsKey (Instr.op (.update 1 [0] 1)) = true ∧ (zero 32).length = 32 ∧
    ∃ u, perform (encode (.init (zero 32))) State.reset = .next u ∧ u.ctx.KEYED = true :=
  ⟨rfl, rfl, rfl, rfl, rfl, rfl, _, rfl, rfl⟩

/-- A keyed block inside a block of keystream that takes a command, and one that takes a reset. -/
theorem witness_StepKeepsTheInvariant :
    ((oneWaiting none).Inv ∧ ∃ u, step (oneWaiting none) = .next u) ∧
    ((oneWaiting (some .duringCommand)).Inv ∧ ∃ u, step (oneWaiting (some .duringCommand)) = .next u) :=
  ⟨⟨inside_inv, _, rfl⟩, ⟨inside_inv, _, rfl⟩⟩

theorem witness_EachCommandRaisesOnlyItsCodes :
    (∃ u, exec (.update 1 [0] 1) State.reset = .next u ∧ u.ctx.STATUS = .notKeyed) ∧
    (∃ u, exec (.init []) keyed = .next u ∧ u.ctx.STATUS = .invalidArgument) ∧
    (∃ u, exec (.update 5 [] 5) keyed = .next u ∧ u.ctx.STATUS = .invalidArgument) ∧
    (∃ u, exec .wipe keyed = .next u) := ⟨⟨_, rfl, rfl⟩, ⟨_, rfl, rfl⟩, ⟨_, rfl, rfl⟩, ⟨_, rfl⟩⟩

theorem witness_RejectionIsPrecise :
    (∃ u, perform { CMD := 0, fields := someFields } inside = .next u ∧ u.ctx.STATUS ≠ .ok) ∧
    (∃ u, perform (encode (.init [])) inside = .next u ∧ u.ctx.STATUS ≠ .ok) ∧
    (∃ u, perform (encode (.seekBlock 1 2)) State.reset = .next u ∧ u.ctx.STATUS ≠ .ok) :=
  ⟨⟨_, rfl, (by decide : Status.illegalCommand ≠ .ok)⟩, ⟨_, rfl, (by decide : Status.invalidArgument ≠ .ok)⟩,
    ⟨_, rfl, (by decide : Status.notKeyed ≠ .ok)⟩⟩

/-- An UPDATE that completes with a byte put out. -/
theorem witness_EveryCommandAnswersWithItsStatus :
    decodeOp (encode (wholeUpdate [0])).CMD = some .update ∧
    ∃ u r, perform (encode (wholeUpdate [0])) inside = .next u ∧ u.response = some r ∧ r.status = .ok ∧ r.out ≠ [] :=
  ⟨rfl, _, _, exec_wholeUpdate (m := [0]) rfl (by decide) (by decide), rfl, rfl, by decide +kernel⟩

theorem witness_OnlyInitAndWipeWriteTheKey :
    decodeOp (encode (.seekOffset 0 70)).CMD ≠ some .init ∧ decodeOp (encode (.seekOffset 0 70)).CMD ≠ some .wipe ∧
    ∃ u, perform (encode (.seekOffset 0 70)) keyed = .next u := ⟨by decide, by decide, _, rfl⟩

theorem witness_WritersOfModeAndKeyed :
    (∃ u, exec (.init (zero 32)) nonceMode = .next u ∧ u.ctx.STATUS = .ok) ∧
    (∃ u, exec (.seekBlock 1 2) nonceMode = .next u ∧ u.ctx.STATUS = .ok) ∧
    (∃ u, exec (.seekOffset 1 2) nonceMode = .next u ∧ u.ctx.STATUS = .ok) ∧
    (∃ u, exec (.seekNonce v21Nonce) keyed = .next u ∧ u.ctx.STATUS = .ok) ∧
    (∃ u, exec .wipe nonceMode = .next u ∧ u.ctx.STATUS = .ok) ∧
    (∃ u, exec (wholeUpdate [0]) nonceMode = .next u ∧ u.ctx.STATUS = .ok) :=
  ⟨⟨_, rfl, rfl⟩, ⟨_, rfl, rfl⟩, ⟨_, rfl, rfl⟩, ⟨_, rfl, rfl⟩, ⟨_, rfl, rfl⟩, ⟨_, rfl, rfl⟩⟩

theorem witness_CommandsButUpdateAreIdempotent :
    Instr.op (.seekOffset 0 70) ≠ .update ∧ ∃ u, exec (.seekOffset 0 70) keyed = .next u := ⟨by decide, _, rfl⟩

/-- Two blocks with different contexts. -/
theorem witness_ResponsesDoNotShowTheContext :
    inside.ctx.KEYED = nonceMode.ctx.KEYED ∧ inside.ctx.CUR ≠ nonceMode.ctx.CUR ∧ inside.ctx.MODE ≠ nonceMode.ctx.MODE ∧
    decodeOp (encode .wipe).CMD ≠ some .update := by decide +kernel

/-- Both forms, with a key of 32 bytes and with one of 31. -/
theorem witness_OneShotFormsWipeAndAreIndependent :
    (OneShot.cryptBlock (zero 32) 3 1 (zero 4) = .cryptBlock (zero 32) 3 1 (zero 4) ∧ Instr.seekBlock 3 1 = .seekBlock 3 1) ∧
    (OneShot.cryptOffset (zero 31) 3 64 (zero 4) = .cryptOffset (zero 31) 3 64 (zero 4) ∧
      Instr.seekOffset 3 64 = .seekOffset 3 64) ∧
    (zero 4).length < 2 ^ 64 ∧ (zero 32).length = 32 ∧ (zero 31).length ≠ 32 :=
  ⟨⟨rfl, rfl⟩, ⟨rfl, rfl⟩, by decide, by decide, by decide⟩

theorem witness_OneShotFormsInvertThemselves : (zero 32).length = 32 ∧ (zero 4).length < 2 ^ 64 := by decide

/-- 2^64 − 1 and 2^64 in both bases. -/
theorem witness_AssemblerRefusesNumbersPastSixtyFourBits :
    digitsValue hexDigit 16 0 ('f' :: "fffffffffffffff".toList) = some (2 ^ 64 - 1) ∧
    digitsValue hexDigit 16 0 ('1' :: "0000000000000000".toList) = some (2 ^ 64) ∧
    digitsValue decimalDigit 10 0 "18446744073709551615".toList = some (2 ^ 64 - 1) ∧
    digitsValue decimalDigit 10 0 "18446744073709551616".toList = some (2 ^ 64) := by decide

/-- Texts of each form of value, lengths on either side of 16, and mnemonics in mixed case. -/
theorem witness_AssemblerDefaultsAndRefusals :
    parseValue "\"010203\"".toList = .ok (.bytes [1, 2, 3]) ∧ parseValue "seq(3)".toList = .ok (.bytes [0, 1, 2]) ∧
    parseValue "zero(16)".toList = .ok (.bytes (Vector.replicate 16 (0 : Byte)).toList) ∧
    parseValue "70".toList = .ok (.number 70) ∧ parseValue "0x1f".toList = .ok (.number 0x1f) ∧
    (zero 15).length ≠ 16 ∧ (zero 17).length ≠ 16 ∧ (3 : U64).toNat = [1, 2, (3 : Byte)].length ∧
    lower "Init".toList = "init".toList ∧ lower "Seek_Nonce".toList = "seek_nonce".toList ∧
    lower "SEEK_BLOCK".toList = "seek_block".toList ∧ lower "SEEK_OFFSET".toList = "seek_offset".toList ∧
    lower "UPDATE".toList = "update".toList ∧ lower "WIPE".toList = "wipe".toList := by decide

/-- The first and last digit strings, the legal word 6 and the illegal word 7, with nothing and with an operand behind. -/
theorem witness_RawWordStandsForItsMnemonic :
    (" in=zero(3)".toList.head?.all isBlank = true ∧ ([] : List Char).head?.all isBlank = true) ∧
    ("00000000".toList.length = 8 ∧ digitsValue hexDigit 16 0 "00000000".toList = some 0) ∧
    digitsValue hexDigit 16 0 "00000006".toList = some 6 ∧ digitsValue hexDigit 16 0 "ffffFFFF".toList = some 0xffffffff ∧
    (∀ op, decodeOp (BitVec.ofNat 32 7) ≠ some op) ∧
    ∃ l, assemble (".word 0x".toList ++ "00000007".toList ++ " in=zero(3)".toList) = .ok l :=
  ⟨by decide, by decide, by decide, by decide, fun op => by cases op <;> decide, _, rfl⟩

end Sys2Proof.Tests
end

section
/-! PROOFS. The context after reset (10_state.md R39), and what every transaction answers (R31, R87): its status is the one that the spec's
table of causes gives, and only an UPDATE that completes puts bytes out. -/

namespace Sys2Proof.Machine

/-! ### The status of a transaction -/

@[simp] theorem selectOperands_op (f : Fields) (op : Op) : (selectOperands f op).op = op := by cases op <;> rfl

/-- The checks of the command that a transaction decodes to come to the status that the table of causes gives (R200 to R203, R206). -/
theorem expectedStatus_of_op {t : Transaction} {op : Op} (keyed : Bool) (h : decodeOp t.CMD = some op) :
    expectedStatus keyed t = statusOf (verdictOf keyed (selectOperands t.fields op)) := by
  unfold expectedStatus
  rw [h]
  cases op with
  | init => by_cases hk : t.fields.KEY.length = 32 <;> simp [Op.needsKey, selectOperands, verdictOf, initCheck, statusOf, hk]
  | update =>
    cases keyed with
    | false => rfl
    | true =>
      by_cases h0 : t.fields.LEN = 0#64
      · simp [selectOperands, verdictOf, updateCheck, statusOf, h0]
      · by_cases hw : t.fields.IN.length = t.fields.LEN.toNat ∧ t.fields.OUT_CAP = t.fields.LEN
        · simp [selectOperands, verdictOf, updateCheck, statusOf, h0, hw]
        · simp [selectOperands, verdictOf, updateCheck, statusOf, h0, hw, ← Classical.not_and_iff_not_or_not]
  | seekNonce | seekBlock | seekOffset => cases keyed <;> rfl
  | wipe => rfl

theorem expectedStatus_of_none {t : Transaction} (keyed : Bool) (h : decodeOp t.CMD = none) :
    expectedStatus keyed t = .illegalCommand := by
  unfold expectedStatus
  rw [h]

theorem STATUS_of_exec {i : Instr} {s u : State} (h : exec i s = .next u) :
    u.ctx.STATUS = statusOf (verdictOf s.ctx.KEYED i) := by
  obtain ⟨v, hv, hs⟩ := exec_status i s
  cases h.symm.trans hv
  exact hs

/-- Every transaction writes STATUS with the first cause that applies (R31). -/
theorem STATUS_of_perform {t : Transaction} {s u : State} (h : perform t s = .next u) :
    u.ctx.STATUS = expectedStatus s.ctx.KEYED t := by
  obtain ⟨op, hop, hp⟩ | ⟨hop, hp⟩ := perform_cases t s
  · rw [expectedStatus_of_op _ hop]
    exact STATUS_of_exec (hp.symm.trans h)
  · rw [expectedStatus_of_none _ hop]
    cases h.symm.trans hp
    rfl

/-! ### The bytes that a transaction puts out -/

theorem out_of_response {s : State} {r : Response} (h : s.response = some r) : s.out = r.out := by
  simp [State.out, h]

theorem updateCheck_proceed_length {keyed : Bool} {len cap : U64} {n : Nat} (h : updateCheck keyed len n cap = .proceed) :
    n = len.toNat := by
  unfold updateCheck at h
  split_ifs at h with _ _ hw
  exact hw.1

theorem updateCheck_noOp_len {keyed : Bool} {len cap : U64} {n : Nat} (h : updateCheck keyed len n cap = .noOp) : len = 0 := by
  unfold updateCheck at h
  split_ifs at h with _ h0
  exact h0

theorem workOf_out_of_ne_update {i : Instr} (c : Context) (h : i.op ≠ .update) : (workOf c i).2 = [] := by
  cases i with
  | update => exact absurd rfl h
  | init | seekNonce | seekBlock | seekOffset | wipe => rfl

/-- Only an UPDATE that completes puts bytes out (R87). -/
theorem exec_out_ne_nil {i : Instr} {s u : State} (h : exec i s = .next u) (ho : u.out ≠ []) :
    i.op = .update ∧ u.ctx.STATUS = .ok := by
  obtain ⟨-, he⟩ | ⟨-, he⟩ | ⟨code, -, he⟩ := exec_cases i s <;> cases h.symm.trans he
  · exact ⟨by_contra fun hi => ho (workOf_out_of_ne_update s.ctx hi), rfl⟩
  · exact absurd rfl ho
  · exact absurd rfl ho

/-- An UPDATE that completes puts out exactly LEN bytes, none when LEN = 0 (R87, R163). -/
theorem exec_update_out_length {len cap : U64} {input : List Byte} {s u : State} (h : exec (.update len input cap) s = .next u)
    (hok : u.ctx.STATUS = .ok) : u.out.length = len.toNat := by
  obtain ⟨hv, he⟩ | ⟨hv, he⟩ | ⟨code, hv, he⟩ := exec_cases (.update len input cap) s <;> cases h.symm.trans he
  · exact (updateBytes_length s.ctx input).trans (updateCheck_proceed_length hv)
  · rw [updateCheck_noOp_len hv]; rfl
  · exact absurd hok (reject_not_ok hv)

theorem perform_out_ne_nil {t : Transaction} {s u : State} (h : perform t s = .next u) (ho : u.out ≠ []) :
    decodeOp t.CMD = some .update ∧ u.ctx.STATUS = .ok := by
  obtain ⟨op, hop, hp⟩ | ⟨-, hp⟩ := perform_cases t s
  · obtain ⟨hi, hs⟩ := exec_out_ne_nil (hp.symm.trans h) ho
    rw [selectOperands_op] at hi
    exact ⟨hi ▸ hop, hs⟩
  · cases h.symm.trans hp
    exact absurd rfl ho

theorem perform_update_out_length {t : Transaction} {s u : State} (h : perform t s = .next u)
    (ht : decodeOp t.CMD = some .update) (hok : u.ctx.STATUS = .ok) : u.out.length = t.fields.LEN.toNat := by
  obtain ⟨op, hop, hp⟩ | ⟨hop, -⟩ := perform_cases t s
  · cases ht.symm.trans hop
    exact exec_update_out_length (hp.symm.trans h) hok
  · cases ht.symm.trans hop

/-- Settles O50: the answer of `perform_port` carries the status of `STATUS_of_perform`, and its bytes are those of the two laws about OUT. -/
theorem everyCommandAnswersWithItsStatus : Obligations.EveryCommandAnswersWithItsStatus := by
  refine ⟨⟨rfl, rfl, rfl, rfl⟩, fun t s => ?_⟩
  obtain ⟨u, hu⟩ := perform_goes_on t s
  obtain ⟨hport, out, hr⟩ := perform_port hu
  have hout : u.out = out := out_of_response hr
  subst hout
  exact ⟨u, _, hu, hr, STATUS_of_perform hu, rfl, perform_out_ne_nil hu, perform_update_out_length hu, hport⟩

/-! ### The context after reset -/

/-- The context that WIPE leaves is the one after reset (R39, R191). -/
theorem wipedContext_eq_reset : wipedContext = Context.reset := rfl

/-- Settles O1: reset's words and bytes are replicated zeros, and the context that WIPE leaves is reset's. -/
theorem resetLeavesTheContextZero : Obligations.ResetLeavesTheContextZero := by
  refine ⟨fun j hj => ?_, fun k hk => ?_, rfl, rfl, rfl, rfl, fun s => ⟨_, exec_wipe s, ?_⟩⟩
  · exact Vector.getElem_replicate hj
  · exact Vector.getElem_replicate hk
  · rw [complete_ctx, wipedContext_eq_reset]; rfl

end Sys2Proof.Machine
end

section
/-! PROOFS. The decoder's table of legal and illegal words (30_encoding.md R72, R73, R80, R203), what a one-shot form comes to (R86), and the
numbers of the assembly syntax (R85). -/

namespace Sys2Proof.Machine

/-! ### Legal and illegal words -/

theorem decode_commandWord (op : Op) (f : Fields) :
    decode { CMD := commandWord op, fields := f } = .command (selectOperands f op) :=
  decode_of_op ((decodeOp_iff _ op).mpr rfl)

theorem decode_rejected_iff (t : Transaction) : decode t = .rejected .illegalCommand ↔ decodeOp t.CMD = none := by
  refine ⟨fun h => ?_, decode_of_none⟩
  cases ho : decodeOp t.CMD with
  | none => rfl
  | some op => cases h.symm.trans (decode_of_op ho)

/-- The legal words are the numbers from 1 to 6 (R72, R73). -/
theorem exists_commandWord_iff (w : Word) : (∃ op, w = commandWord op) ↔ 1 ≤ w.toNat ∧ w.toNat ≤ 6 := by
  constructor
  · rintro ⟨op, rfl⟩
    cases op <;> decide
  · rintro ⟨h1, h6⟩
    obtain h | h | h | h | h | h : w.toNat = 1 ∨ w.toNat = 2 ∨ w.toNat = 3 ∨ w.toNat = 4 ∨ w.toNat = 5 ∨ w.toNat = 6 := by omega
    · exact ⟨.init, BitVec.eq_of_toNat_eq h⟩
    · exact ⟨.seekNonce, BitVec.eq_of_toNat_eq h⟩
    · exact ⟨.seekBlock, BitVec.eq_of_toNat_eq h⟩
    · exact ⟨.seekOffset, BitVec.eq_of_toNat_eq h⟩
    · exact ⟨.update, BitVec.eq_of_toNat_eq h⟩
    · exact ⟨.wipe, BitVec.eq_of_toNat_eq h⟩

/-- The words of no command are those with RSVD ≠ 0 or a reserved OP (R80). -/
theorem decodeOp_eq_none_iff (w : Word) :
    decodeOp w = none ↔ (w.toNat / 16 ≠ 0 ∨ w.toNat % 16 = 0 ∨ 7 ≤ w.toNat % 16) := by
  have hlegal : decodeOp w = none ↔ ¬ ∃ op, w = commandWord op := by
    simp only [Option.eq_none_iff_forall_ne_some, ne_eq, decodeOp_iff, not_exists]
  rw [hlegal, exists_commandWord_iff]
  omega

theorem perform_of_none {t : Transaction} (s : State) (h : decodeOp t.CMD = none) :
    perform t s = .next (s.reject .illegalCommand) := by
  obtain ⟨op, ho, -⟩ | ⟨-, hp⟩ := perform_cases t s
  · cases h.symm.trans ho
  · exact hp

/-- V50's words: a reserved OP, or RSVD ≠ 0 in its lowest, its highest and all its bits. -/
theorem decodeOp_vector50 :
    ∀ w ∈ ([0x00000000, 0x00000007, 0x0000000f, 0x00000011, 0x80000005, 0xffffffff] : List Word), decodeOp w = none := by
  simp only [List.forall_mem_cons, List.not_mem_nil, false_imp_iff, implies_true]
  decide

/-- Settles O7: the six rows are `decode_commandWord`, and a reserved OP makes the word illegal by `decodeOp_eq_none_iff`. -/
theorem tableWordsDecodeToTheirCommands : Obligations.TableWordsDecodeToTheirCommands := by
  refine ⟨fun f => ⟨decode_commandWord .init f, decode_commandWord .seekNonce f, decode_commandWord .seekBlock f,
    decode_commandWord .seekOffset f, decode_commandWord .update f, decode_commandWord .wipe f⟩, fun w f h => ?_, fun w hw f => ?_⟩
  · exact decode_of_none ((decodeOp_eq_none_iff w).mpr (.inr h))
  · exact decode_of_none (decodeOp_vector50 w hw)

/-- Settles O8: `decodeOp_iff`, read as numbers, and the rejection of a word that decodes to no command. -/
theorem eachCommandHasExactlyOneWord : Obligations.EachCommandHasExactlyOneWord := by
  refine ⟨fun w op => ?_, fun w f s h => ⟨_, perform_of_none s (Option.eq_none_iff_forall_ne_some.mpr h), rfl⟩⟩
  rw [decodeOp_iff, ← BitVec.toNat_inj]
  cases op <;> rfl

/-- Settles O10: a transaction is illegal exactly when its word names no command, and `State.reject` is its whole effect. -/
theorem illegalWordsChangeOnlyStatus : Obligations.IllegalWordsChangeOnlyStatus := fun t s =>
  ⟨(decode_rejected_iff t).trans (decodeOp_eq_none_iff t.CMD), fun h => perform_of_none s ((decodeOp_eq_none_iff t.CMD).mpr h)⟩

/-! ### The one-shot forms -/

/-- A one-shot form is its body, then a WIPE of whatever state the body ended in (R86). -/
theorem run_of_body {o : OneShot} {s u : State} (h : runUntilRejected o.body s = .next u) :
    ∃ r, o.run s = .next r ∧ exec .wipe u = .next r.block ∧ r.status = u.ctx.STATUS ∧
      r.out = if u.ctx.STATUS = .ok then u.out else [] := by
  refine ⟨⟨u.complete wipedContext [], u.ctx.STATUS, if u.ctx.STATUS = .ok then u.out else []⟩, ?_, exec_wipe u, rfl, rfl⟩
  unfold OneShot.run
  simp only [h, exec_wipe]

theorem exec_wipe_ctx {s u : State} (h : exec .wipe s = .next u) : u.ctx = State.reset.ctx := by
  cases (exec_wipe s).symm.trans h
  rfl

theorem exec_init_keyed {key : List Byte} (s : State) (hk : key.length = 32) :
    ∃ u, exec (.init key) s = .next u ∧ u.ctx.KEYED = true ∧ u.ctx.STATUS = .ok :=
  ⟨_, exec_init s hk, rfl, rfl⟩

theorem exec_seek_keyed {i : Instr} {s : State} (h : Op.isSeek i.op = true) (hk : s.ctx.KEYED = true) :
    ∃ u, exec i s = .next u ∧ u.ctx.KEYED = true ∧ u.ctx.STATUS = .ok :=
  ⟨_, exec_seek h hk, (seek_work_keyed h s.ctx).trans hk, rfl⟩

theorem body_of_form {o : OneShot} {key input : List Byte} {n p : U64} {seek : Instr}
    (h : (o = .cryptBlock key n p input ∧ seek = .seekBlock n p) ∨ (o = .cryptOffset key n p input ∧ seek = .seekOffset n p)) :
    o.body = [.init key, seek, wholeUpdate input] ∧ Op.isSeek seek.op = true := by
  obtain ⟨rfl, rfl⟩ | ⟨rfl, rfl⟩ := h <;> exact ⟨rfl, rfl⟩

section
variable {o : OneShot} {key input : List Byte} {seek : Instr} (hb : o.body = [.init key, seek, wholeUpdate input])
include hb

/-- With a 32-byte key the four commands of a one-shot form run in turn. -/
theorem run_commands (s : State) (hk : key.length = 32) (hs : Op.isSeek seek.op = true) (hm : input.length < 2 ^ 64) :
    ∃ r a b c, o.run s = .next r ∧ exec (.init key) s = .next a ∧ exec seek a = .next b ∧
      exec (wholeUpdate input) b = .next c ∧ exec .wipe c = .next r.block ∧ r.status = .ok ∧ r.out = c.out := by
  obtain ⟨a, ha, hka, hsa⟩ := exec_init_keyed s hk
  obtain ⟨b, hseek, hkb, hsb⟩ := exec_seek_keyed hs hka
  have hc := exec_wholeUpdate_any hkb hm
  obtain ⟨r, hr, hw, hst, ho⟩ := run_of_body (o := o) (s := s)
    (by rw [hb, runUntilRejected_ok ha hsa, runUntilRejected_ok hseek hsb, runUntilRejected_ok hc rfl]; rfl)
  exact ⟨r, a, b, _, hr, ha, hseek, hc, hw, hst, ho⟩

/-- With any other key only INIT and WIPE run. -/
theorem run_commands_badKey (s : State) (hk : key.length ≠ 32) :
    ∃ r a, o.run s = .next r ∧ exec (.init key) s = .next a ∧ exec .wipe a = .next r.block ∧
      r.status = .invalidArgument ∧ r.out = [] := by
  obtain ⟨r, hr, hw, hst, ho⟩ := run_of_body (o := o) (s := s) (by rw [hb]; exact run_badKey s hk)
  exact ⟨r, _, hr, exec_of_reject (by simp [verdictOf, initCheck, hk]), hw, hst, ho⟩

end

/-- Settles O55: the commands run as `run_commands` says, and the bytes are those of `run_seek`, which names nothing of the state before. -/
theorem oneShotFormsWipeAndAreIndependent : Obligations.OneShotFormsWipeAndAreIndependent := by
  intro o key input n p seek s t hform hm
  obtain ⟨hb, hs⟩ := body_of_form hform
  by_cases hk : key.length = 32
  · obtain ⟨r, a, b, c, hr, ha, hseek, hc, hw, hst, ho⟩ := run_commands hb s hk hs hm
    obtain ⟨r', hr', -, -, hbytes⟩ := run_seek hb s hk hs hm
    obtain ⟨q, hq, -, hqst, hqbytes⟩ := run_seek hb t hk hs hm
    cases hr.symm.trans hr'
    have hlen : r.out.length = input.length := by rw [hbytes, updateBytes_length]
    exact ⟨r, q, hr, hq, exec_wipe_ctx hw, hst.trans hqst.symm, hbytes.trans hqbytes.symm,
      fun _ => ⟨a, b, c, ha, hseek, hc, hw, hst, ho, hlen⟩, fun h => absurd hk h⟩
  · obtain ⟨r, a, hr, ha, hw, hst, ho⟩ := run_commands_badKey hb s hk
    obtain ⟨q, -, hq, -, -, hqst, hqo⟩ := run_commands_badKey hb t hk
    exact ⟨r, q, hr, hq, exec_wipe_ctx hw, hst.trans hqst.symm, ho.trans hqo.symm,
      fun h => absurd h hk, fun _ => ⟨a, ha, hw, hst, ho⟩⟩

/-! ### Numbers of the assembly syntax -/

/-- What the assembler makes of a number: itself as a u64, or a refusal (R85). -/
def asU64 (n : Nat) : Except AsmError U64 :=
  if n < 2 ^ 64 then .ok (BitVec.ofNat 64 n) else .error .numberTooWide

theorem asU64_of_lt {n : Nat} (h : n < 2 ^ 64) : ∃ v : U64, asU64 n = .ok v ∧ v.toNat = n :=
  ⟨BitVec.ofNat 64 n, if_pos h, by rw [BitVec.toNat_ofNat, Nat.mod_eq_of_lt h]⟩

theorem asU64_of_ge {n : Nat} (h : 2 ^ 64 ≤ n) : asU64 n = .error .numberTooWide := if_neg (Nat.not_lt.mpr h)

theorem parseNumber_hex {c : Char} {ds : List Char} {n : Nat} (h : digitsValue hexDigit 16 0 (c :: ds) = some n) :
    parseNumber ('0' :: 'x' :: c :: ds) = asU64 n := by
  simp only [parseNumber, h, asU64]

/-- A text of decimal digits is read as decimal: its second character is no 'x'. -/
theorem parseNumber_decimal {ds : List Char} {n : Nat} (h0 : ds ≠ []) (h : digitsValue decimalDigit 10 0 ds = some n) :
    parseNumber ds = asU64 n := by
  unfold parseNumber
  split
  case h_1 c ds => cases h
  case h_2 c ds _ => simp only [h, asU64]
  case h_3 => exact absurd rfl h0

/-- Settles O57: in either base `parseNumber` makes of the number what `asU64` does. -/
theorem assemblerRefusesNumbersPastSixtyFourBits : Obligations.AssemblerRefusesNumbersPastSixtyFourBits := by
  refine ⟨fun c ds n h => ?_, fun ds n h0 h => ?_⟩
  · rw [parseNumber_hex h]
    exact ⟨asU64_of_lt, asU64_of_ge⟩
  · rw [parseNumber_decimal h0 h]
    exact ⟨asU64_of_lt, asU64_of_ge⟩

end Sys2Proof.Machine
end

section
/-! PROOFS. The permutation core as the spec writes it (40_permutation_core.md R101, R103 to R106): QR line by line, QR at four positions, PERM
as repeated double rounds, and BLOCK byte by byte. -/

namespace Sys2Proof.Machine

/-! ### QR and QR_AT -/

/-- QR's four lines, with the rotations of R13 as rotations of a 32-bit word. -/
theorem qr_lines (a b c d : Word) : ∃ a1 b1 c1 d1 a2 b2 c2 d2 : Word,
    a1 = a + b ∧ d1 = (d ^^^ a1).rotateLeft 16 ∧ c1 = c + d1 ∧ b1 = (b ^^^ c1).rotateLeft 12 ∧
    a2 = a1 + b1 ∧ d2 = (d1 ^^^ a2).rotateLeft 8 ∧ c2 = c1 + d2 ∧ b2 = (b1 ^^^ c2).rotateLeft 7 ∧
    qr a b c d = (a2, b2, c2, d2) := by
  refine ⟨_, _, _, _, _, _, _, _, rfl, rfl, rfl, rfl, rfl, rfl, rfl, rfl, ?_⟩
  simp (disch := decide) only [qr, rotl32_eq]

section
variable (x : Words) (i j k l : Fin 16)

/-- At four different positions QR_AT writes what QR gives. -/
theorem qrAt_get_positions (h : [i, j, k, l].Nodup) :
    ((qrAt x (i, j, k, l))[i], (qrAt x (i, j, k, l))[j], (qrAt x (i, j, k, l))[k], (qrAt x (i, j, k, l))[l]) =
      qr x[i] x[j] x[k] x[l] := by
  simp only [List.nodup_cons, List.mem_cons, List.not_mem_nil, or_false, not_or] at h
  obtain ⟨⟨hij, hik, hil⟩, ⟨hjk, hjl⟩, hkl, -⟩ := h
  simp only [qrAt_get, hij, hik, hil, hjk, hjl, hkl, if_true, if_false]

/-- QR_AT leaves a word at no one of its positions as it was. -/
theorem qrAt_get_of_notMem {m : Fin 16} (h : m ∉ [i, j, k, l]) : (qrAt x (i, j, k, l))[m] = x[m] := by
  simp only [List.mem_cons, List.not_mem_nil, or_false, not_or] at h
  obtain ⟨hi, hj, hk, hl⟩ := h
  rw [qrAt_get, if_neg hl, if_neg hk, if_neg hj, if_neg hi]

end

/-! ### PERM -/

/-- A double round is one fold over the columns and then the diagonals (R103, R104). -/
theorem doubleRound_eq_foldl (x : Words) : doubleRound x = (columns ++ diagonals).foldl qrAt x := by
  rw [doubleRound, columnRound, diagonalRound, List.foldl_append]

/-- The last of `n + 1` double rounds split off, where the definition splits off the first. -/
theorem doubleRounds_succ (n : Nat) (x : Words) : doubleRounds (n + 1) x = doubleRound (doubleRounds n x) := by
  induction n generalizing x with
  | zero => rfl
  | succ n ih => exact ih (doubleRound x)

theorem doubleRounds_eq_repeat (n : Nat) (x : Words) : doubleRounds n x = Nat.repeat doubleRound n x := by
  induction n with
  | zero => rfl
  | succ n ih => rw [doubleRounds_succ, ih, Nat.repeat]

/-- Settles O22: the parts are `qr_lines`, the two laws of QR_AT, `doubleRounds_eq_repeat` at NROUNDS / 2 = 10, and `doubleRound_eq_foldl`. -/
theorem permutationIsTenDoubleRounds : Obligations.PermutationIsTenDoubleRounds :=
  ⟨qr_lines, fun x i j k l h => ⟨qrAt_get_positions x i j k l h, fun _ => qrAt_get_of_notMem x i j k l⟩,
    doubleRounds_eq_repeat 10, doubleRound_eq_foldl⟩

/-! ### BLOCK -/

/-- Each word of the feed-forward is the permuted word plus the original one, modulo 2^32 (R106). -/
theorem feedForward_toNat (s : Words) (i : Nat) (hi : i < 16) :
    (feedForward s)[i].toNat = ((perm s)[i].toNat + s[i].toNat) % 2 ^ 32 := by
  rw [feedForward, Vector.getElem_zipWith, BitVec.toNat_add]

/-- Byte 4i + j of the serialised words is byte j of word i (R50). -/
theorem serialize_get (z : Words) (i j : Nat) (hi : i < 16) (hj : j < 4) : (serialize z)[4 * i + j] = byteOfWord z[i] j := by
  have hword : (4 * i + j) / 4 = i := by omega
  have hbyte : (4 * i + j) % 4 = j := by omega
  simp only [serialize, Vector.getElem_ofFn, hword, hbyte]

/-- Settles O26: `serialize_get` finds the byte's word and `feedForward_toNat` is that word. -/
theorem blockIsTheFeedForwardLittleEndian : Obligations.BlockIsTheFeedForwardLittleEndian := by
  intro s i j hi hj
  rw [blockFn, serialize_get _ i j hi hj, byteOfWord_toNat, feedForward_toNat]

end Sys2Proof.Machine
end

section
/-! PROOFS. INIT (41_state_init.md R120, R121, R124): its word and its syntax, the context that a 32-byte key gives, and the rejection of every
other key. -/

namespace Sys2Proof.Machine

/-! ### The syntax of a command with one bytes operand -/

section
variable (name : String) (v : AsmValue) (b : List Byte)

theorem optional_singleton : Operands.optional [(name.toList, v)] name = .ok (some v) := by
  simp [Operands.optional]

theorem bytes?_singleton : Operands.bytes? [(name.toList, .bytes b)] name = .ok (some b) := by
  simp only [Operands.bytes?, optional_singleton]

theorem only_singleton : Operands.only [(name.toList, v)] [name] = .ok () := by
  simp [Operands.only]

end

/-- A key of any length is passed on (R83). -/
theorem assembleInit_key (key : List Byte) : assembleInit [("key".toList, .bytes key)] = .ok (.init key) := by
  rw [assembleInit, only_singleton, bytes?_singleton]; rfl

/-! ### The context that INIT leaves -/

theorem initContext_counterRegion (key : List Byte) (c : Context) :
    (initContext key c).S[12] = 0 ∧ (initContext key c).S[13] = 0 ∧ (initContext key c).S[14] = 0 ∧ (initContext key c).S[15] = 0 :=
  ⟨rfl, rfl, rfl, rfl⟩

/-- The key words are the key's bytes, four to a word and the lowest first (R75, R120). -/
theorem initWords_key_toNat (key : List Byte) (i : Nat) (h : i < 8) :
    (initWords key)[4 + i].toNat =
      (key.getD (4 * i) 0).toNat + 2 ^ 8 * (key.getD (4 * i + 1) 0).toNat + 2 ^ 16 * (key.getD (4 * i + 2) 0).toNat +
        2 ^ 24 * (key.getD (4 * i + 3) 0).toNat := by
  rw [initWords_key key i h, keyWord_toNat]

/-- Of the old context only STATUS is left, which the completed command writes (R124). -/
theorem initContext_forgets (key : List Byte) (c d : Context) (code : Status) :
    { initContext key c with STATUS := code } = { initContext key d with STATUS := code } := rfl

/-- Everything an INIT with a key of another length does (R121). -/
theorem exec_init_badKey {key : List Byte} (s : State) (hk : key.length ≠ 32) :
    exec (.init key) s = .next (s.reject .invalidArgument) :=
  exec_of_reject (if_neg hk)

/-- Settles O13: `exec_init` gives the completed state, whose key words are `initWords_key_toNat`, and `exec_init_badKey` the rejected one. -/
theorem initLoadsAKeyOfThirtyTwoBytes : Obligations.InitLoadsAKeyOfThirtyTwoBytes := by
  intro key s
  refine ⟨fun f hf => hf ▸ decode_commandWord .init f, assembleInit_key key, fun hk => ?_, exec_init_badKey s⟩
  have hexec := exec_init s hk
  obtain ⟨h12, h13, h14, h15⟩ := initContext_counterRegion key s.ctx
  have hconst := initWords_constants key
  exact ⟨_, hexec, hconst 0, hconst 1, hconst 2, hconst 3, initWords_key_toNat key, h12, h13, h14, h15,
    fun _ hj => Vector.getElem_replicate hj, rfl, rfl, rfl, rfl, rfl, (exec_port hexec).1⟩

/-- Settles O14: both states run INIT to its end by `exec_init`, and `initContext_forgets` makes their contexts one. -/
theorem initForgetsTheOldContext : Obligations.InitForgetsTheOldContext := fun key s t hk =>
  ⟨_, _, exec_init s hk, exec_init t hk, initContext_forgets key s.ctx t.ctx .ok, rfl⟩

end Sys2Proof.Machine
end

section
/-! PROOFS. The counter and the three seeks (42_counter_and_seek.md R132, R133, R136 to R138, R140): the increment as one addition, what each
seek writes and leaves, and how a command with two number operands is assembled (30_encoding.md R83). -/

namespace Sys2Proof.Machine

/-! ### The increment -/

theorem ctrInc_block_of_ne (S : Words) (j : Nat) (hj : j < 16) (h12 : j ≠ 12) (h13 : j ≠ 13) : (ctrInc .block S)[j] = S[j] := by
  obtain hlow | rfl | rfl : j < 12 ∨ j = 14 ∨ j = 15 := by omega
  · exact ctrInc_low S .block j hlow
  · exact ctrInc_block_14 S
  · exact ctrInc_block_15 S

/-- Settles O27: `ctr_ctrInc` with its counter and width written out, and the words that `ctrInc_block_of_ne` leaves. -/
theorem incrementInBlockModeIsSixtyFourBits : Obligations.IncrementInBlockModeIsSixtyFourBits := fun S =>
  ⟨ctr_ctrInc S .block, ctrInc_block_of_ne S⟩

/-- Settles O28: `ctr_ctrInc` with its counter and width written out, and the words that `ctrInc_low` leaves. -/
theorem incrementInNonceModeIsAllTheRegion : Obligations.IncrementInNonceModeIsAllTheRegion := fun S =>
  ⟨ctr_ctrInc S .nonce128, ctrInc_low S .nonce128⟩

/-- The largest counter value wraps to zero under one increment (R134). -/
theorem ctr_ctrInc_of_last {S : Words} {m : Mode} (h : ctr S m + 1 = wrapOf m) : ctr (ctrInc m S) m = 0 := by
  rw [ctr_ctrInc, h, Nat.mod_self]

theorem words_of_ctr_block_zero {S : Words} (h : ctr S .block = 0) : S[12] = 0 ∧ S[13] = 0 := by
  simp only [ctr] at h
  exact ⟨word_eq_ofNat _ 0 (by omega), word_eq_ofNat _ 0 (by omega)⟩

theorem words_of_ctr_nonce128_zero {S : Words} (h : ctr S .nonce128 = 0) (i : Nat) (hi : i < 4) : S[12 + i] = 0 := by
  have hzero : S[12].toNat = 0 ∧ S[13].toNat = 0 ∧ S[14].toNat = 0 ∧ S[15].toNat = 0 := by simp only [ctr] at h; omega
  obtain ⟨h12, h13, h14, h15⟩ := hzero
  obtain rfl | rfl | rfl | rfl : i = 0 ∨ i = 1 ∨ i = 2 ∨ i = 3 := by omega
  · exact word_eq_ofNat _ 0 h12
  · exact word_eq_ofNat _ 0 h13
  · exact word_eq_ofNat _ 0 h14
  · exact word_eq_ofNat _ 0 h15

/-! ### The counter region that a seek writes -/

section
variable (S : Words)

theorem writeNonce16_get (v : Vector Byte 16) (i : Nat) (hi : i < 4) : (writeNonce16 S v)[12 + i] = nonceWord v i := by
  obtain rfl | rfl | rfl | rfl : i = 0 ∨ i = 1 ∨ i = 2 ∨ i = 3 := by omega
  · exact setCounterRegion_12 ..
  · exact setCounterRegion_13 ..
  · exact setCounterRegion_14 ..
  · exact setCounterRegion_15 ..

theorem nonceWord_toNat_of_ones {v : Vector Byte 16} (h : ∀ k (_ : k < 16), v[k] = 0xff) (i : Nat) (hi : i < 4) :
    (nonceWord v i).toNat = 2 ^ 32 - 1 := by
  rw [nonceWord_toNat v i hi, h, h, h, h]
  rfl

/-- Sixteen bytes 0xff are the last of the 128-bit counter's values. -/
theorem ctr_writeNonce16_of_ones {v : Vector Byte 16} (h : ∀ k (_ : k < 16), v[k] = 0xff) :
    ctr (writeNonce16 S v) .nonce128 + 1 = wrapOf .nonce128 := by
  have hword := nonceWord_toNat_of_ones h
  simp only [ctr, writeNonce16, setCounterRegion_12, setCounterRegion_13, setCounterRegion_14, setCounterRegion_15,
    hword 0 (by decide), hword 1 (by decide), hword 2 (by decide), hword 3 (by decide), wrapOf]
  decide

variable (nonce blk offset : U64)

/-- The block counter's halves and then the nonce's, the low half first (R77). -/
theorem writeBlockNonce_toNat :
    (writeBlockNonce S nonce blk)[12].toNat = blk.toNat % 2 ^ 32 ∧ (writeBlockNonce S nonce blk)[13].toNat = blk.toNat / 2 ^ 32 ∧
    (writeBlockNonce S nonce blk)[14].toNat = nonce.toNat % 2 ^ 32 ∧ (writeBlockNonce S nonce blk)[15].toNat = nonce.toNat / 2 ^ 32 := by
  simp only [writeBlockNonce, setCounterRegion_12, setCounterRegion_13, setCounterRegion_14, setCounterRegion_15, lowWord_toNat,
    highWord_toNat, and_self]

theorem writeBlockNonce_low (j : Nat) (hj : j < 12) : (writeBlockNonce S nonce blk)[j] = S[j] := setCounterRegion_low S _ _ _ _ j hj

/-- SEEK_OFFSET's block counter before its GEN (R78, R138). -/
theorem ctr_writeBlockNonce_offset : ctr (writeBlockNonce S nonce (offsetBlock offset)) .block = offset.toNat / 64 := by
  rw [ctr_writeBlockNonce, offsetBlock_toNat]

/-- The increment of SEEK_OFFSET's GEN cannot wrap (R139). -/
theorem ctr_ctrInc_writeBlockNonce_offset :
    ctr (ctrInc .block (writeBlockNonce S nonce (offsetBlock offset))) .block = offset.toNat / 64 + 1 := by
  have hlt := offset.isLt
  rw [ctr_ctrInc, ctr_writeBlockNonce_offset, wrapOf]
  omega

end

/-! ### The counter region alone -/

/-- Two contexts' words with the same counter region, whatever their constants and keys. -/
def SameRegion (S T : Words) : Prop := ∀ j (_ : 12 ≤ j) (_ : j < 16), S[j] = T[j]

theorem sameRegion_of_words {S T : Words} (h12 : S[12] = T[12]) (h13 : S[13] = T[13]) (h14 : S[14] = T[14]) (h15 : S[15] = T[15]) :
    SameRegion S T := by
  intro j hlo hhi
  obtain rfl | rfl | rfl | rfl : j = 12 ∨ j = 13 ∨ j = 14 ∨ j = 15 := by omega
  all_goals assumption

theorem sameRegion_setCounterRegion (S T : Words) (a b c d : Word) :
    SameRegion (setCounterRegion S a b c d) (setCounterRegion T a b c d) :=
  sameRegion_of_words (by simp) (by simp) (by simp) (by simp)

/-- The 64-bit increment reads and writes nothing outside the counter region. -/
theorem SameRegion.ctrInc_block {S T : Words} (h : SameRegion S T) : SameRegion (ctrInc .block S) (ctrInc .block T) := by
  have hctr : ctr S .block = ctr T .block := by rw [ctr, ctr, h 12 (by decide) (by decide), h 13 (by decide) (by decide)]
  apply sameRegion_of_words
  · rw [ctrInc_eq, ctrInc_eq, withCtr_12, withCtr_12, hctr]
  · rw [ctrInc_eq, ctrInc_eq, withCtr_13, withCtr_13, hctr]
  · rw [ctrInc_block_14, ctrInc_block_14, h 14 (by decide) (by decide)]
  · rw [ctrInc_block_15, ctrInc_block_15, h 15 (by decide) (by decide)]

/-! ### What a seek does -/

/-- Everything a seek does on a context without a key (R136 to R138). -/
theorem exec_seek_unkeyed {i : Instr} {s : State} (h : Op.isSeek i.op = true) (hk : s.ctx.KEYED = false) :
    exec i s = .next (s.reject .notKeyed) :=
  exec_of_reject (by rw [seek_verdict h, hk, seekCheck_false])

/-- A seek that is not SEEK_OFFSET leaves KS (R136, R137). -/
theorem seek_work_KS {i : Instr} (h : Op.isSeek i.op = true) (ho : i.op ≠ .seekOffset) (c : Context) : (workOf c i).1.KS = c.KS := by
  cases i with
  | seekNonce | seekBlock => rfl
  | seekOffset => exact absurd rfl ho
  | init | update | wipe => cases h

/-- KS after SEEK_OFFSET: the block that the offset lies inside, or the old KS if it lies at a block's start (R138). -/
theorem seekOffsetContext_KS (n o : U64) (c : Context) : (seekOffsetContext n o c).KS =
    if o.toNat % 64 = 0 then c.KS else blockFn (withCtr (seekOffsetContext n o c).S .block (o.toNat / 64)) := by
  split_ifs with h
  · rw [seekOffsetContext_aligned n o c h, seekBlockContext_KS]
  · rw [seekOffsetContext_inside n o c (Nat.pos_of_ne_zero h), setCursor_KS, setCursor_S, gen_KS, gen_S, seekBlockContext_MODE,
      seekBlockContext_S, withCtr_ctrInc, ← ctr_writeBlockNonce_offset c.S n o, withCtr_ctr]

/-- What SEEK_OFFSET writes beside KS is the same from every context, whatever its key: it does not depend on the block. -/
theorem seekOffsetContext_region (n o : U64) (c d : Context) :
    SameRegion (seekOffsetContext n o c).S (seekOffsetContext n o d).S ∧
    (seekOffsetContext n o c).MODE = (seekOffsetContext n o d).MODE ∧ (seekOffsetContext n o c).CUR = (seekOffsetContext n o d).CUR := by
  have hwritten : SameRegion (writeBlockNonce c.S n (offsetBlock o)) (writeBlockNonce d.S n (offsetBlock o)) :=
    sameRegion_setCounterRegion c.S d.S _ _ _ _
  rcases Nat.eq_zero_or_pos (o.toNat % 64) with h | h
  · rw [seekOffsetContext_aligned n o c h, seekOffsetContext_aligned n o d h]
    exact ⟨hwritten, rfl, rfl⟩
  · rw [seekOffsetContext_inside n o c h, seekOffsetContext_inside n o d h]
    exact ⟨hwritten.ctrInc_block, rfl, rfl⟩

/-- What a seek writes beside KS is the same from every context, whatever its key (R140). -/
theorem seek_work_region {i : Instr} (h : Op.isSeek i.op = true) (c d : Context) :
    SameRegion (workOf c i).1.S (workOf d i).1.S ∧ (workOf c i).1.MODE = (workOf d i).1.MODE ∧
    (workOf c i).1.CUR = (workOf d i).1.CUR := by
  cases i with
  | seekNonce | seekBlock => exact ⟨sameRegion_setCounterRegion c.S d.S _ _ _ _, rfl, rfl⟩
  | seekOffset n o => exact seekOffsetContext_region n o c d
  | init | update | wipe => cases h

/-- Settles O18: a seek is rejected by `exec_seek_unkeyed`, or completes by `exec_seek` with the laws of its work. -/
theorem seeksKeepTheKeyAndPutOutNothing : Obligations.SeeksKeepTheKeyAndPutOutNothing := by
  intro i s u hi hu
  have hport := (exec_port hu).1
  cases hk : s.ctx.KEYED with
  | false =>
    cases hu.symm.trans (exec_seek_unkeyed hi hk)
    exact ⟨fun _ _ => rfl, hk, rfl, hport, fun _ => rfl, fun _ _ _ h => (Bool.false_ne_true h).elim,
      fun _ _ h => (Bool.false_ne_true h).elim⟩
  | true =>
    cases hu.symm.trans (exec_seek hi hk)
    refine ⟨seek_work_low hi s.ctx, (seek_work_keyed hi s.ctx).trans hk, rfl, hport, fun h => ?_, fun n o h _ => ?_, fun v w _ hv hw => ?_⟩
    · exact seek_work_KS hi (h.resolve_right (by decide)) s.ctx
    · subst h
      exact seekOffsetContext_KS n o s.ctx
    · cases hw.symm.trans (exec_seek hi hv)
      obtain ⟨hS, hMODE, hCUR⟩ := seek_work_region hi v.ctx s.ctx
      exact ⟨hS, hMODE, hCUR, rfl, rfl⟩

/-! ### The seeks assembled -/

theorem asNonce16_toList (v : Vector Byte 16) : asNonce16 v.toList = .ok v := by
  simp [asNonce16, Vector.toList]

/-- A nonce of sixteen bytes is passed on (R83). -/
theorem assembleSeekNonce_nonce (v : Vector Byte 16) : assembleSeekNonce [("nonce".toList, .bytes v.toList)] = .ok (.seekNonce v) := by
  rw [assembleSeekNonce, only_singleton, bytes?_singleton]
  exact congrArg (Except.map Instr.seekNonce) (asNonce16_toList v)

section
variable {p q : String} (h : p ≠ q) (a b : U64)

theorem only_pair (v w : AsmValue) : Operands.only [(p.toList, v), (q.toList, w)] [p, q] = .ok () := by
  simp [Operands.only]

include h

theorem number?_pair_first : Operands.number? [(p.toList, .number a), (q.toList, .number b)] p = .ok (some a) := by
  simp [Operands.number?, Operands.optional, String.toList_inj, h.symm]

theorem number?_pair_second : Operands.number? [(p.toList, .number a), (q.toList, .number b)] q = .ok (some b) := by
  simp [Operands.number?, Operands.optional, String.toList_inj, h]

end

theorem assembleSeekBlock_numbers (nonce blk : U64) :
    assembleSeekBlock [("nonce".toList, .number nonce), ("block".toList, .number blk)] = .ok (.seekBlock nonce blk) := by
  rw [assembleSeekBlock, only_pair, number?_pair_first (by decide), number?_pair_second (by decide)]; rfl

theorem assembleSeekOffset_numbers (nonce offset : U64) :
    assembleSeekOffset [("nonce".toList, .number nonce), ("offset".toList, .number offset)] = .ok (.seekOffset nonce offset) := by
  rw [assembleSeekOffset, only_pair, number?_pair_first (by decide), number?_pair_second (by decide)]; rfl

/-! ### The three seeks whole -/

/-- Settles O15: the words are those of `writeNonce16_get`, the last counter value wraps by `ctr_ctrInc_of_last`, and without a key
`exec_seek_unkeyed` gives the rejected state. -/
theorem seekNonceWritesTheWholeCounterRegion : Obligations.SeekNonceWritesTheWholeCounterRegion := by
  intro v s
  refine ⟨fun f hf => hf ▸ decode_commandWord .seekNonce f, assembleSeekNonce_nonce v,
    fun hk => ⟨writeNonce16 s.ctx.S v, exec_seek rfl hk, setCounterRegion_low s.ctx.S _ _ _ _, fun i hi => ?_, fun hones => ?_⟩,
    exec_seek_unkeyed rfl⟩
  · rw [writeNonce16_get s.ctx.S v i hi, nonceWord_toNat v i hi]
  · exact words_of_ctr_nonce128_zero (ctr_ctrInc_of_last (ctr_writeNonce16_of_ones s.ctx.S hones))

/-- Settles O16: the words are those of `writeBlockNonce_toNat`, the position is that of an exhausted block (`pos_exhausted`), and the last
block wraps by `ctr_ctrInc_of_last`. -/
theorem seekBlockSplitsCounterAndNonce : Obligations.SeekBlockSplitsCounterAndNonce := by
  intro nonce blk s
  refine ⟨fun f hn hb => hn ▸ hb ▸ decode_commandWord .seekBlock f, assembleSeekBlock_numbers nonce blk, fun hk => ?_,
    exec_seek_unkeyed rfl⟩
  have hctr := ctr_writeBlockNonce s.ctx.S nonce blk
  have hpos : pos (writeBlockNonce s.ctx.S nonce blk) .block 64 = 64 * blk.toNat :=
    hctr ▸ pos_exhausted (seekBlockContext nonce blk s.ctx) rfl
  obtain ⟨h12, h13, h14, h15⟩ := writeBlockNonce_toNat s.ctx.S nonce blk
  refine ⟨_, exec_seek rfl hk, writeBlockNonce_low s.ctx.S nonce blk, h12, h13, h14, h15, hpos, fun hlast => ?_⟩
  have hwrap : ctr (writeBlockNonce s.ctx.S nonce blk) .block + 1 = wrapOf .block := by
    rw [hctr, hlast]; rfl
  obtain ⟨z12, z13⟩ := words_of_ctr_block_zero (ctr_ctrInc_of_last hwrap)
  exact ⟨z12, z13, ctrInc_block_14 _, ctrInc_block_15 _⟩

/-- Settles O17: S is the region that SEEK_BLOCK writes and T the same after one increment; the context is that of
`seekOffsetContext_aligned` or of `seekOffsetContext_inside`. -/
theorem seekOffsetLandsInsideItsBlock : Obligations.SeekOffsetLandsInsideItsBlock := by
  intro nonce offset s
  refine ⟨fun f hn ho => hn ▸ ho ▸ decode_commandWord .seekOffset f, assembleSeekOffset_numbers nonce offset, fun hk => ?_,
    exec_seek_unkeyed rfl⟩
  have hexec : exec (.seekOffset nonce offset) s = .next (s.complete (seekOffsetContext nonce offset s.ctx) []) := exec_seek rfl hk
  have hlow := writeBlockNonce_low s.ctx.S nonce (offsetBlock offset)
  obtain ⟨-, -, h14, h15⟩ := writeBlockNonce_toNat s.ctx.S nonce (offsetBlock offset)
  refine ⟨writeBlockNonce s.ctx.S nonce (offsetBlock offset), ctrInc .block (writeBlockNonce s.ctx.S nonce (offsetBlock offset)),
    fun j hj => ⟨hlow j hj, (ctrInc_low _ _ j hj).trans (hlow j hj)⟩, ctr_writeBlockNonce_offset s.ctx.S nonce offset,
    ctr_ctrInc_writeBlockNonce_offset s.ctx.S nonce offset, ⟨h14, h15⟩, ⟨ctrInc_block_14 _, ctrInc_block_15 _⟩, fun h => ?_, fun h => ?_⟩
  · rw [hexec, seekOffsetContext_aligned nonce offset s.ctx h]; rfl
  · refine ⟨cursorOf (offset.toNat % 64), cursorOf_val _ (by omega), ?_⟩
    rw [hexec, seekOffsetContext_inside nonce offset s.ctx h]; rfl

end Sys2Proof.Machine
end

section
/-! PROOFS. The keystream generator and UPDATE (43_keystream_update.md R161 to R166): what GEN writes, in which order UPDATE checks, and its
three steps, each as the UPDATE of the first bytes followed by the UPDATE of the rest. -/

namespace Sys2Proof.Machine

/-! ### GEN and the checks of UPDATE -/

/-- Settles O29: the words after a GEN are those of one increment, so the laws of `ctrInc` say what they are. -/
theorem keystreamGeneratorTakesTheBlockThenCounts : Obligations.KeystreamGeneratorTakesTheBlockThenCounts := fun c =>
  ⟨ctrInc c.MODE c.S, rfl, ctr_ctrInc c.S c.MODE, ctrInc_low c.S c.MODE,
    fun hm => hm ▸ ⟨ctrInc_block_14 c.S, ctrInc_block_15 c.S⟩⟩

section
variable {len cap : U64} {n : Nat}

theorem updateCheck_unkeyed : updateCheck false len n cap = .reject .notKeyed := rfl

theorem updateCheck_zero : updateCheck true 0 n cap = .noOp := rfl

theorem updateCheck_sizes (h0 : len ≠ 0) (h : n ≠ len.toNat ∨ cap ≠ len) : updateCheck true len n cap = .reject .invalidArgument := by
  rw [updateCheck, if_neg (by decide), if_neg h0, if_neg (not_and_or.mpr h)]

end

/-- Settles O30: the verdict of the checks in each of the three cases, and what a command does on that verdict. -/
theorem updateChecksInOrder : Obligations.UpdateChecksInOrder := by
  intro len cap input s
  refine ⟨fun hk => ?_, fun hk h0 => ?_, fun hk h0 hsizes => ?_⟩
  · exact exec_of_reject (by rw [hk]; exact updateCheck_unkeyed)
  · exact exec_of_noOp (by rw [hk, h0]; exact updateCheck_zero)
  · exact exec_of_reject (by rw [hk]; exact updateCheck_sizes h0 hsizes)

/-! ### The steps of UPDATE -/

/-- A byte that was exclusive-ored with the keystream from cursor `i` on. -/
theorem xorBytes_keystream (l : List Byte) (ks : Block) (i : Nat) {k : Nat} (hk : k < l.length) (hi : i + k < 64) :
    ∃ b : Byte, ks[i + k]? = some b ∧ (xorBytes l (ks.toList.drop i))[k]? = some (l.getD k 0 ^^^ b) := by
  refine ⟨ks[i + k], Vector.getElem?_eq_getElem hi, xorBytes_get _ _ _ _ _ ?_ ?_⟩
  · rw [List.getD_eq_getElem l 0 hk, List.getElem?_eq_getElem hk]
  · simp [hi]

/-- An UPDATE whose first `n` bytes leave the context `c` and use `ks` from cursor `i` on: the rest is as an UPDATE from `c` (R164). -/
theorem exec_wholeUpdate_split {m : List Byte} {s : State} {c : Context} {ks : Block} {n i : Nat} (hk : s.ctx.KEYED = true)
    (hm : m.length < 2 ^ 64) (hn : n ≤ m.length) (hi : i + n ≤ 64)
    (hfirst : updateBytes s.ctx (m.take n) = (c, xorBytes (m.take n) (ks.toList.drop i))) :
    ∃ u v : State, exec (wholeUpdate m) s = .next u ∧ exec (wholeUpdate (m.drop n)) { s with ctx := c } = .next v ∧
      u.ctx = v.ctx ∧ u.out.drop n = v.out ∧ u.ctx.STATUS = .ok ∧ s.SamePort u ∧
      ∀ k < n, ∃ b : Byte, ks[i + k]? = some b ∧ u.out[k]? = some (m.getD k 0 ^^^ b) := by
  have hlen : (m.take n).length = n := List.length_take_of_le hn
  have hout : (xorBytes (m.take n) (ks.toList.drop i)).length = n := by
    rw [xorBytes_length, hlen, List.length_drop, Vector.length_toList]; omega
  have hck : c.KEYED = true := by
    rw [← hk, ← updateBytes_KEYED s.ctx (m.take n), hfirst]
  have hall : updateBytes s.ctx m =
      ((updateBytes c (m.drop n)).1, xorBytes (m.take n) (ks.toList.drop i) ++ (updateBytes c (m.drop n)).2) := by
    have happ := updateBytes_append s.ctx (m.take n) (m.drop n)
    rwa [List.take_append_drop, hfirst] at happ
  refine ⟨_, _, exec_wholeUpdate_any hk hm, exec_wholeUpdate_any hck (by rw [List.length_drop]; omega), ?_, ?_, rfl,
    (exec_port (exec_wholeUpdate_any hk hm)).1, fun k hkn => ?_⟩
  · simp only [complete_ctx, hall]
  · simp only [complete_out, hall]
    exact List.drop_left' hout
  · obtain ⟨b, hb, hx⟩ := xorBytes_keystream (m.take n) ks i (hlen.symm ▸ hkn) (by omega)
    refine ⟨b, hb, ?_⟩
    rw [complete_out, hall, List.getElem?_append_left (hout.symm ▸ hkn), hx, List.getD_eq_getElem?_getD,
      List.getElem?_take_of_lt hkn, List.getD_eq_getElem?_getD]

/-- Settles O32: steps 1 and 2 are `exec_wholeUpdate_split` at the bytes that `updateBytes_buffered` and `updateBytes_whole` describe, and
step 3 is `updateBytes_fresh`. -/
theorem updateTakesItsThreeSteps : Obligations.UpdateTakesItsThreeSteps := by
  intro input s hk hm
  refine ⟨fun h0 => h0 ▸ exec_wholeUpdate_nil hk, fun n hcur hn => ?buffered, fun hcur h64 => ?whole, fun hcur h0 h64 => ?partialBlock⟩
  case buffered =>
    have hlen : (input.take n).length = n := List.length_take_of_le (by omega)
    have hfirst := updateBytes_buffered s.ctx (input.take n) (by omega)
    rw [hlen] at hfirst
    obtain ⟨u, v, hu, hv, hctx, hout, hok, hport, hbytes⟩ := exec_wholeUpdate_split hk hm (by omega) (by omega) hfirst
    exact ⟨_, u, v, hu, hv, cursorOf_val _ (by omega), hctx, hout, hok, hport, hbytes⟩
  case whole =>
    have hfirst := updateBytes_whole s.ctx (input.take 64) hcur (List.length_take_of_le h64)
    simpa only [Nat.zero_add] using exec_wholeUpdate_split (i := 0) hk hm h64 (Nat.le_refl 64) hfirst
  case partialBlock =>
    have hlast := updateBytes_fresh s.ctx input hcur h0 (by omega)
    refine ⟨cursorOf input.length, xorBytes input s.ctx.gen.KS.toList, ?_, cursorOf_val _ (by omega), ?_, fun k hkn => ?_⟩
    · rw [exec_wholeUpdate_any hk hm, hlast]
      rfl
    · rw [xorBytes_length, Vector.length_toList]; omega
    · simpa only [Nat.zero_add, List.drop_zero] using xorBytes_keystream input s.ctx.gen.KS 0 hkn (by omega)

end Sys2Proof.Machine
end

section
/-! PROOFS. WIPE (44_teardown.md R190 to R194): its word and its syntax, the zero context that it leaves, and the block without a key, which
only an INIT with a 32-byte key gives one. -/

namespace Sys2Proof.Machine

/-! ### The block without a key -/

/-- A command that needs a key is rejected without one, before any other check (R194, R206). -/
theorem exec_needsKey_unkeyed {i : Instr} {s : State} (h : Op.needsKey i.op = true) (hk : s.ctx.KEYED = false) :
    exec i s = .next (s.reject .notKeyed) :=
  exec_of_reject (hk ▸ needsKey_verdict h)

/-- INIT's check passes for a 32-byte key only (R121). -/
theorem initCheck_proceed_length {n : Nat} (h : initCheck n = .proceed) : n = 32 := by
  unfold initCheck at h
  split_ifs at h with hn
  exact hn

/-- The one command that gives the block a key (R30, R194). -/
theorem init_of_exec_sets_KEYED {i : Instr} {s u : State} (h : exec i s = .next u) (hk : s.ctx.KEYED = false)
    (hu : u.ctx.KEYED = true) : ∃ key, i = .init key ∧ key.length = 32 := by
  have hkept : s.ctx.KEYED ≠ true := hk ▸ Bool.false_ne_true
  obtain ⟨hv, he⟩ | ⟨-, he⟩ | ⟨code, -, he⟩ := exec_cases i s <;> cases h.symm.trans he
  · cases i with
    | init key => exact ⟨key, rfl, initCheck_proceed_length hv⟩
    | wipe => exact absurd hu Bool.false_ne_true
    | seekNonce | seekBlock | seekOffset | update => exact absurd (proceed_keyed hv rfl) hkept
  · exact absurd hu hkept
  · exact absurd hu hkept

/-- The one transaction that gives the block a key (R30, R194). -/
theorem init_of_perform_sets_KEYED {t : Transaction} {s u : State} (h : perform t s = .next u) (hk : s.ctx.KEYED = false)
    (hu : u.ctx.KEYED = true) : decodeOp t.CMD = some .init ∧ t.fields.KEY.length = 32 := by
  obtain ⟨op, hop, hp⟩ | ⟨-, hp⟩ := perform_cases t s
  · obtain ⟨key, hi, hlen⟩ := init_of_exec_sets_KEYED (hp.symm.trans h) hk hu
    cases op with
    | init => cases hi; exact ⟨hop, hlen⟩
    | seekNonce | seekBlock | seekOffset | update | wipe => cases hi
  · cases h.symm.trans hp
    exact absurd (hk.symm.trans hu) Bool.false_ne_true

/-- Settles O44: without a key the commands that need one are rejected by `exec_needsKey_unkeyed`, `init_of_perform_sets_KEYED` names the one
way to a key, and `exec_init` and `exec_wipe` are the two commands that complete. -/
theorem onlyInitAndWipeWorkAfterWipe : Obligations.OnlyInitAndWipeWorkAfterWipe :=
  ⟨fun s => ⟨_, exec_wipe s, rfl⟩, fun s hk =>
    ⟨fun _ hi => exec_needsKey_unkeyed hi hk, fun _ _ hu => init_of_perform_sets_KEYED hu hk,
      fun _ hlen => ⟨_, exec_init s hlen, rfl, rfl⟩, _, exec_wipe s, rfl⟩⟩

/-! ### The context that WIPE leaves -/

/-- WIPE with no operand (R83). -/
theorem assembleWipe_nil : assembleWipe [] = .ok .wipe := rfl

/-- Settles O42: the state is that of `exec_wipe`, whose context is the reset context by `wipedContext_eq_reset`. -/
theorem wipeZeroesTheWholeContext : Obligations.WipeZeroesTheWholeContext := by
  refine ⟨decode_commandWord .wipe, assembleWipe_nil, fun s => ⟨_, exec_wipe s, ?_⟩⟩
  rw [complete_ctx, wipedContext_eq_reset]
  exact ⟨fun _ hj => Vector.getElem_replicate hj, fun _ hk => Vector.getElem_replicate hk, rfl, rfl, rfl, rfl, rfl,
    complete_response s [] wipedContext, (exec_port (exec_wipe s)).1⟩

end Sys2Proof.Machine
end

section
/-! PROOFS. Exceptions (60_exceptions.md R201 to R206): which status a transaction gets, and that a rejected one writes that status and
nothing else. -/

namespace Sys2Proof.Machine

/-! ### The one priority of causes -/

/-- Settles O47: every transaction goes on by `perform_goes_on`, with the status of `STATUS_of_perform`. -/
theorem statusFollowsThePriorityOfCauses : Obligations.StatusFollowsThePriorityOfCauses := fun t s =>
  let ⟨u, hu⟩ := perform_goes_on t s
  ⟨u, hu, STATUS_of_perform hu⟩

/-! ### Precise rejection -/

/-- A command whose checks pass, or that has nothing to do, completes with OK; so any other status is a rejection (R204). -/
theorem exec_of_status_ne_ok {i : Instr} {s u : State} (h : exec i s = .next u) (hu : u.ctx.STATUS ≠ .ok) :
    u = s.reject u.ctx.STATUS := by
  obtain ⟨-, he⟩ | ⟨-, he⟩ | ⟨code, -, he⟩ := exec_cases i s <;> cases h.symm.trans he
  · exact absurd rfl hu
  · exact absurd rfl hu
  · rfl

/-- A transaction that does not complete with OK is a rejection, of its word or by its command's checks (R203, R204). -/
theorem perform_of_status_ne_ok {t : Transaction} {s u : State} (h : perform t s = .next u) (hu : u.ctx.STATUS ≠ .ok) :
    u = s.reject u.ctx.STATUS := by
  obtain ⟨op, -, hp⟩ | ⟨-, hp⟩ := perform_cases t s
  · exact exec_of_status_ne_ok (hp.symm.trans h) hu
  · cases h.symm.trans hp
    rfl

/-- Settles O49: by `perform_of_status_ne_ok` the next state is that of `State.reject`, which is the state that R204 writes out. -/
theorem rejectionIsPrecise : Obligations.RejectionIsPrecise := fun _ _ _ h hu => perform_of_status_ne_ok h hu

end Sys2Proof.Machine
end

section
/-! PROOFS. The encoder against the decoder (30_encoding.md sections 2 and 3), and the invariant of the context (10_state.md section 3,
43_keystream_update.md section 3) from reset on and along every step. -/

namespace Sys2Proof.Machine

/-! ### Encoding and decoding -/

theorem encode_wellFormed {i : Instr} (h : i.wellFormed = true) : (encode i).wellFormed = true := by
  cases i with
  | init key => exact h
  | seekNonce | seekBlock | seekOffset | update | wipe => exact decide_eq_true (Nat.two_pow_pos 64)

/-- An instruction's own fields give it back under its own OP. -/
theorem selectOperands_fields (i : Instr) : selectOperands i.fields i.op = i := by cases i <;> rfl

theorem decode_encode (i : Instr) : decode (encode i) = .command i :=
  (decode_commandWord i.op i.fields).trans (congrArg Decoded.command (selectOperands_fields i))

/-- A transaction that decodes to a command has that command's one word (R73). -/
theorem CMD_of_decode {t : Transaction} {i : Instr} (h : decode t = .command i) : t.CMD = commandWord i.op := by
  obtain ⟨op, hcmd, rfl⟩ := (decode_command_iff t i).mp h
  rw [selectOperands_op, hcmd]

theorem transaction_ext {t t' : Transaction} (hcmd : t.CMD = t'.CMD) (hfields : t.fields = t'.fields) : t = t' := by
  cases t; cases t'; cases hcmd; cases hfields; rfl

/-- Settles O9: the encoding decodes back by `decode_encode`, and `CMD_of_decode` leaves no second word for the same fields. -/
theorem encodingIsTheOneTransactionThatDecodesBack : Obligations.EncodingIsTheOneTransactionThatDecodesBack := by
  refine fun i hi => ⟨encode_wellFormed hi, fun t => ⟨fun ⟨hdec, hfields⟩ => ?_, ?_⟩⟩
  · exact transaction_ext (CMD_of_decode hdec) hfields
  · rintro rfl
    exact ⟨decode_encode i, rfl⟩

/-! ### The invariant -/

theorem inv_perform {t : Transaction} {s u : State} (h : perform t s = .next u) (hc : s.ctx.Inv) : u.ctx.Inv := by
  obtain ⟨op, -, hp⟩ | ⟨-, hp⟩ := perform_cases t s
  · exact inv_exec (hp.symm.trans h) hc
  · cases h.symm.trans hp
    exact inv_setStatus .illegalCommand hc

/-- Settles O45: reset's context has its own STATUS. -/
theorem resetMeetsTheInvariant : Obligations.ResetMeetsTheInvariant := inv_reset_status .ok

/-- Settles O46: a step takes a reset, waits, or performs a transaction on the context of before, which keeps the invariant by
`inv_perform`. -/
theorem stepKeepsTheInvariant : Obligations.StepKeepsTheInvariant := by
  intro s u hs hu
  obtain ⟨a, -, hstep⟩ | ⟨-, -, hstep⟩ | ⟨h, t, v, -, -, hv, hstep⟩ := step_cases s <;> cases hu.symm.trans hstep
  · rw [State.Inv, takeReset_ctx]
    exact inv_reset_status .ok
  · exact hs
  · rw [State.Inv, deliver_ctx]
    exact inv_perform hv hs

end Sys2Proof.Machine
end

section
/-! PROOFS. The command port (20_memory.md section 5, 70_reset_and_hazards.md sections 1 and 4): which command is accepted and from which
queue, what a reset takes from it, and that every step goes on. -/

namespace Sys2Proof.Machine

/-! ### Queues -/

/-- A state with the queues of `s` after it accepted a command: the command left its host's queue, and nothing left another. -/
theorem queueOf_of_accepted {s u : State} {h : Nat} {t : Transaction} (hn : s.nextCommand = some (h, t))
    (hq : u.queues = (s.accept h).queues) :
    s.queueOf h = t :: u.queueOf h ∧ ∀ h', h' ≠ h → u.queueOf h' = s.queueOf h' := by
  obtain ⟨-, ts, hts⟩ := nextCommand_some hn
  have hu (h' : Nat) : u.queueOf h' = if h' = h then (s.queueOf h).tail else s.queueOf h' := by
    rw [← queueOf_accept, State.queueOf, State.queueOf, hq]
  refine ⟨?_, fun h' hne => (hu h').trans (if_neg hne)⟩
  rw [hu, if_pos rfl, hts, List.tail_cons]

/-- A waiting command has its host among the ready ones. -/
theorem nextHost_of_waiting {s : State} {h : Nat} (hw : s.queueOf h ≠ []) : ∃ h', s.nextHost = some h' := by
  have hready : readyFrom 0 s.queues ≠ [] := List.ne_nil_of_mem ((mem_readyFrom 0 h s.queues).mpr ⟨h, (Nat.zero_add h).symm, hw⟩)
  obtain ⟨h', -, hc⟩ := chooseHost_mem s.turn _ hready
  exact ⟨h', hc⟩

/-- Settles O5: a host is ready by `nextHost_of_waiting`, and whichever the schedule picks has a command waiting. -/
theorem someWaitingCommandIsAccepted : Obligations.SomeWaitingCommandIsAccepted := by
  rintro s ⟨h, hw⟩
  obtain ⟨h', hh'⟩ := nextHost_of_waiting hw
  obtain ⟨t, ts, hq⟩ := List.exists_cons_of_ne_nil (nextHost_waiting hh')
  exact ⟨h', t, nextCommand_of_waiting s h' hh' t ts hq, by rw [hq, List.head?_cons]⟩

/-! ### Steps -/

theorem step_of_resetIn {s : State} {a : ResetArrival} (h : s.resetIn = some a) : step s = .next (s.takeReset a) := by
  simp only [step, h]

theorem step_of_nothing_waiting {s : State} (hr : s.resetIn = none) (hn : s.nextCommand = none) : step s = .next s := by
  simp only [step, hr, hn]

/-- The step that accepts a command ends in its transaction's state, delivered. -/
theorem step_of_perform {s u : State} {h : Nat} {t : Transaction} (hr : s.resetIn = none) (hn : s.nextCommand = some (h, t))
    (hu : perform t (s.accept h) = .next u) : step s = .next (u.deliver h) := by
  rw [step_of_nextCommand hr hn, hu, deliverTo]

/-- Settles O6: each of the three kinds of step of `step_cases` ends in a next state. -/
theorem everyStepGoesOn : Obligations.EveryStepGoesOn := by
  refine fun s => ⟨?_, step_of_nothing_waiting⟩
  obtain ⟨a, -, hstep⟩ | ⟨-, -, hstep⟩ | ⟨h, t, u, -, -, -, hstep⟩ := step_cases s <;> exact ⟨_, hstep⟩

/-- Settles O4: the transaction leaves the port as acceptance left it (`perform_port`), and `queueOf_of_accepted` says how that is. -/
theorem eachHostsCommandsGoInOrder : Obligations.EachHostsCommandsGoInOrder := by
  intro s h t hr hn
  obtain ⟨u, hu⟩ := perform_goes_on t (s.accept h)
  have hport := (perform_port hu).1
  obtain ⟨hfirst, hothers⟩ := queueOf_of_accepted (u := u.deliver h) hn ((deliver_queues u h).trans hport.queues)
  exact ⟨u.deliver h, step_of_perform hr hn hu, hfirst, hothers, (deliver_turn u h).trans hport.turn⟩

theorem perform_of_decode {t : Transaction} {i : Instr} (s : State) (h : decode t = .command i) : perform t s = exec i s := by
  rw [perform, h]

theorem decodeOp_of_no_command {t : Transaction} (h : ∀ i, decode t ≠ .command i) : decodeOp t.CMD = none :=
  Option.eq_none_iff_forall_ne_some.mpr fun _ hop => h _ (decode_of_op hop)

/-- Settles O11: the step is `step_of_perform`, a word that decodes runs by `perform_of_decode`, and one that does not is rejected by
`perform_of_none`. -/
theorem stepRunsTheDecodedCommand : Obligations.StepRunsTheDecodedCommand := by
  intro s h t hr hn
  obtain ⟨u, hu⟩ := perform_goes_on t (s.accept h)
  obtain ⟨hport, out, hresp⟩ := perform_port hu
  refine ⟨accept_ctx s h, accept_delivered s h, u, _, hu, hresp, ?_, fun i hi => (perform_of_decode _ hi).symm.trans hu, fun hno => ?_⟩
  · rw [step_of_perform hr hn hu, ← accept_delivered s h, ← hport.delivered, State.deliver, hresp]
  · cases hu.symm.trans (perform_of_none (s.accept h) (decodeOp_of_no_command hno))
    cases hresp
    exact ⟨rfl, rfl⟩

/-! ### Resets -/

/-- A reset during no command leaves the queues and the schedule. -/
theorem takeReset_port_of_idle {s : State} (a : ResetArrival) (hn : a = .duringCommand → s.nextCommand = none) :
    (s.takeReset a).queues = s.queues ∧ (s.takeReset a).turn = s.turn := by
  cases a with
  | betweenCommands => exact ⟨rfl, rfl⟩
  | duringCommand =>
    have hnext : ({ s with ctx := Context.reset, response := none, resetIn := none } : State).nextCommand = none :=
      (nextCommand_congr s _ rfl rfl).trans (hn rfl)
    simp only [State.takeReset, hnext, and_self]

/-- A reset during a command takes it from the port as acceptance does (R230). -/
theorem takeReset_port_of_command {s : State} {h : Nat} {t : Transaction} (hn : s.nextCommand = some (h, t)) :
    (s.takeReset .duringCommand).queues = (s.accept h).queues ∧ (s.takeReset .duringCommand).turn = s.turn + 1 := by
  have hnext : ({ s with ctx := Context.reset, response := none, resetIn := none } : State).nextCommand = some (h, t) :=
    (nextCommand_congr s _ rfl rfl).trans hn
  simp only [State.takeReset, hnext]
  exact ⟨rfl, rfl⟩

/-- Settles O2: the reset is taken by `step_of_resetIn`; the port is left as it was, or as acceptance of the abandoned command leaves it. -/
theorem resetAbandonsTheCommandInProgress : Obligations.ResetAbandonsTheCommandInProgress := by
  intro s a ha
  refine ⟨s.takeReset a, step_of_resetIn ha, takeReset_ctx s a, takeReset_response s a, takeReset_resetIn s a, takeReset_delivered s a,
    fun hbetween => ?_, fun _ hn => takeReset_port_of_idle a fun _ => hn, ?_⟩
  · exact takeReset_port_of_idle a fun hduring => nomatch hbetween.symm.trans hduring
  · rintro h t rfl hn
    obtain ⟨hqueues, hturn⟩ := takeReset_port_of_command hn
    obtain ⟨hfirst, hothers⟩ := queueOf_of_accepted hn hqueues
    exact ⟨hfirst, hothers, hturn⟩

/-! ### A table word placed as the next command -/

/-- The transaction that `withFetchWord` issues for a number of 32 bits. -/
def fetchTransaction (w : Nat) : Transaction := { CMD := BitVec.ofNat 32 (w % 2 ^ 32), fields := Fields.zeros }

theorem withFetchWord_eq (s : State) (w : Nat) :
    s.withFetchWord 32 w = ({ s with resetIn := none } : State).issueFirst (fetchTransaction w) := by
  simp only [State.withFetchWord, if_pos (Nat.mod_lt w (Nat.two_pow_pos 32)), fetchTransaction]

theorem decode_fetchTransaction {w : Nat} {i : Instr} (h : decodeTableWord 32 w = some i) :
    decode (fetchTransaction w) = .command i := by
  simp only [decodeTableWord, if_pos (Nat.mod_lt w (Nat.two_pow_pos 32))] at h
  split at h
  · cases h; assumption
  · cases h

/-- Settles O12: the issued transaction is next by `nextHost_issueFirst`, and accepting it leaves the context and the queues of before. -/
theorem fetchedTableWordIsTheNextCommand : Obligations.FetchedTableWordIsTheNextCommand := by
  intro s w i hi
  rw [withFetchWord_eq]
  obtain ⟨h, ts, hhost, hqueue, hkept⟩ := nextHost_issueFirst { s with resetIn := none } (fetchTransaction w)
  have hn := nextCommand_of_waiting _ h hhost _ ts hqueue
  obtain ⟨u, hu⟩ := perform_goes_on (fetchTransaction w) ((({ s with resetIn := none } : State).issueFirst (fetchTransaction w)).accept h)
  refine ⟨h, _, u, ?_, hkept, (perform_of_decode _ (decode_fetchTransaction hi)).symm.trans hu, step_of_perform ?_ hn hu⟩
  · rw [accept_ctx, issueFirst_ctx]
  · rw [issueFirst_resetIn]

end Sys2Proof.Machine
end

section
/-! PROOFS. The register map (10_state.md section 2): each register's packing, and the one that a host may read. -/

namespace Sys2Proof.Machine

section
variable (c : Context)

theorem register_of_word (n : Nat) (h : n < 16) : c.register n = some c.S[n] := dif_pos h

theorem register_of_block (j : Nat) (h : j < 16) : c.register (16 + j) = some (le32At c.KS.toList (4 * j)) := by
  rw [Context.register, dif_neg (by omega), if_pos (by omega), Nat.add_sub_cancel_left]

theorem register_ctrl : c.register 32 = some c.ctrlRegister := rfl

theorem register_status : c.register 33 = some c.statusRegister := rfl

theorem register_none {n : Nat} (h : 33 < n) : c.register n = none := by
  rw [Context.register, dif_neg (by omega), if_neg (by omega), if_neg (by omega), if_neg (by omega)]

/-- Four bytes of KS in little-endian order (R14, R32). -/
theorem le32At_KS_toNat (i : Nat) (h : i + 3 < 64) : (le32At c.KS.toList i).toNat =
    c.KS[i].toNat + 2 ^ 8 * c.KS[i + 1].toNat + 2 ^ 16 * c.KS[i + 2].toNat + 2 ^ 24 * c.KS[i + 3].toNat := by
  have hbyte (k : Nat) (hk : k < 64) : byteAt c.KS.toList k = c.KS[k] := by
    rw [byteAt, List.getD_eq_getElem _ _ (by rwa [Vector.length_toList]), Vector.getElem_toList]
  rw [le32At, le32_toNat, hbyte i (by omega), hbyte (i + 1) (by omega), hbyte (i + 2) (by omega), hbyte (i + 3) h]

/-- CTRL's three fields do not overlap and need nine bits. -/
theorem ctrlRegister_toNat :
    c.ctrlRegister.toNat = c.CUR.val + 2 ^ 7 * (modeBit c.MODE).toNat + 2 ^ 8 * c.KEYED.toNat := by
  have hcur := c.CUR.isLt
  have hmode := (modeBit c.MODE).isLt
  have hkeyed := Bool.toNat_lt c.KEYED
  rw [Context.ctrlRegister, BitVec.toNat_ofNat, Nat.mod_eq_of_lt (by omega)]

theorem statusRegister_toNat : c.statusRegister.toNat = (statusCode c.STATUS).toNat := by
  have hcode := (statusCode c.STATUS).isLt
  rw [Context.statusRegister, BitVec.toNat_setWidth, Nat.mod_eq_of_lt (by omega)]

end

/-- R39 under the register numbers. -/
theorem register_reset : ∀ n ≤ 33, State.reset.ctx.register n = some 0 := by decide

/-- Settles O3: the registers by number, CTRL and STATUS as the numbers of `ctrlRegister_toNat` and `statusRegister_toNat`. -/
theorem registerMapPacksTheContext : Obligations.RegisterMapPacksTheContext := by
  intro c
  have hcur := c.CUR.isLt
  have hmode := (modeBit c.MODE).isLt
  have hkeyed := Bool.toNat_lt c.KEYED
  have hcode := (statusCode c.STATUS).isLt
  refine ⟨register_of_word c, fun j hj => ⟨_, register_of_block c j hj, le32At_KS_toNat c (4 * j) (by omega)⟩,
    ⟨_, register_ctrl c, ?_⟩, ⟨_, register_status c, ?_⟩, fun n => register_none c, register_reset, rfl, fun n hn => if_neg hn⟩
  · rw [ctrlRegister_toNat]
    refine ⟨?_, ?_, ?_, ?_⟩ <;> omega
  · rw [statusRegister_toNat]
    constructor <;> omega

end Sys2Proof.Machine
end

section
/-! PROOFS. The permutation core as a function (40_permutation_core.md R102, R104, R105): QR and PERM can be undone, PERM of zeros is zero, and
the quarter rounds of a round may be taken in any order. -/

namespace Sys2Proof.Machine

/-! ### QR -/

/-- Settles O23: `qrInv`, QR's lines backwards, is its inverse on either side. -/
theorem quarterRoundIsABijection : Obligations.QuarterRoundIsABijection :=
  Function.bijective_iff_has_inverse.mpr ⟨fun w => qrInv w.1 w.2.1 w.2.2.1 w.2.2.2, fun _ => qrInv_qr _ _ _ _ _ rfl,
    fun _ => qr_qrInv _ _ _ _ _ rfl⟩

theorem qr_zero : qr 0 0 0 0 = (0, 0, 0, 0) := by decide

theorem qrAt_zero (q : Quad) : qrAt (Vector.replicate 16 0) q = Vector.replicate 16 0 := by
  have hzero (m : Fin 16) : (Vector.replicate 16 0 : Words)[m] = 0 := Vector.getElem_replicate m.isLt
  refine words_ext_fin fun m => ?_
  simp only [qrAt_get, hzero, qr_zero, ite_self]

theorem foldl_qrAt_zero (l : List Quad) : l.foldl qrAt (Vector.replicate 16 0) = Vector.replicate 16 0 := by
  induction l with
  | nil => rfl
  | cons q qs ih => rw [List.foldl_cons, qrAt_zero, ih]

/-! ### PERM -/

theorem doubleRound_bijective : Function.Bijective doubleRound := by
  rw [funext doubleRound_eq_foldl]
  exact foldl_bij _ (List.forall_mem_append.mpr ⟨columns_distinctPositions, diagonals_distinctPositions⟩)

theorem doubleRounds_bijective (n : Nat) : Function.Bijective (doubleRounds n) := by
  induction n with
  | zero => exact Function.bijective_id
  | succ n ih => exact ih.comp doubleRound_bijective

theorem doubleRounds_zero (n : Nat) : doubleRounds n (Vector.replicate 16 0) = Vector.replicate 16 0 := by
  induction n with
  | zero => rfl
  | succ n ih => rw [doubleRounds_succ, ih, doubleRound_eq_foldl, foldl_qrAt_zero]

/-- Settles O24: a double round is a bijection and keeps the zero words, so any number of them does. -/
theorem permutationIsABijection : Obligations.PermutationIsABijection := ⟨doubleRounds_bijective _, doubleRounds_zero _⟩

/-! ### The order of a round -/

theorem columns_shareNoPosition : ∀ p ∈ columns, ∀ q ∈ columns, p ≠ q → ShareNoPosition p q := by
  unfold ShareNoPosition; decide

theorem diagonals_shareNoPosition : ∀ p ∈ diagonals, ∀ q ∈ diagonals, p ≠ q → ShareNoPosition p q := by
  unfold ShareNoPosition; decide

/-- Settles O25: the quadruples of a round share no word, so their quarter rounds commute (`order_indep`). -/
theorem roundsDoNotDependOnTheirOrder : Obligations.RoundsDoNotDependOnTheirOrder := fun x order =>
  ⟨fun h => order_indep columns columns_shareNoPosition order h x, fun h => order_indep diagonals diagonals_shareNoPosition order h x⟩

end Sys2Proof.Machine
end

section
/-! PROOFS. The seeks against each other (42_counter_and_seek.md section 2, 20_memory.md section 1), and the keystream position that INIT and
each seek leave (43_keystream_update.md section 3). -/

namespace Sys2Proof.Machine

/-! ### One seek after another -/

/-- Settles O19: a seek leaves S[0..11] and KEYED, and on nothing else of the old context does the next seek depend (`seek_congr`). -/
theorem theLastSeekDecides : Obligations.TheLastSeekDecides := by
  intro a b s u v w ha hb hk hu hv hw
  cases hu.symm.trans (exec_seek ha hk)
  have hkept := (seek_work_keyed ha s.ctx).trans hk
  cases hv.symm.trans (exec_seek hb hkept)
  cases hw.symm.trans (exec_seek hb hk)
  exact seek_congr hb _ s.ctx (seek_work_low ha s.ctx)

/-! ### SEEK_OFFSET and SEEK_BLOCK -/

theorem offsetBlock_of_aligned {k offset : U64} (h : offset.toNat = 64 * k.toNat) : offsetBlock offset = k :=
  BitVec.eq_of_toNat_eq (by rw [offsetBlock_toNat]; omega)

theorem exec_seekOffset_of_aligned (nonce : U64) {k offset : U64} (s : State) (h : offset.toNat = 64 * k.toNat) :
    exec (.seekOffset nonce offset) s = exec (.seekBlock nonce k) s := by
  cases hk : s.ctx.KEYED with
  | true =>
    rw [exec_seek rfl hk, exec_seek rfl hk]
    simp only [workOf]
    rw [seekOffsetContext_aligned nonce offset s.ctx (by omega), offsetBlock_of_aligned h]
  | false => rw [exec_seek_unkeyed rfl hk, exec_seek_unkeyed rfl hk]

/-- From the last offset there is, SEEK_OFFSET leaves the counter at 2^58 and the cursor on the last byte of the block before (R139). -/
theorem seekOffsetContext_last (nonce : U64) (c : Context) :
    (seekOffsetContext nonce 0xffffffffffffffff c).S[12].toNat = 0 ∧
    (seekOffsetContext nonce 0xffffffffffffffff c).S[13].toNat = 0x04000000 ∧
    (seekOffsetContext nonce 0xffffffffffffffff c).CUR.val = 63 := by
  have hctr := ctr_ctrInc_writeBlockNonce_offset c.S nonce 0xffffffffffffffff
  have hlow := (ctrInc .block (writeBlockNonce c.S nonce (offsetBlock 0xffffffffffffffff)))[12].isLt
  have hoffset : (0xffffffffffffffff : U64).toNat = 2 ^ 64 - 1 := rfl
  rw [ctr, hoffset] at hctr
  rw [seekOffsetContext_inside nonce _ c (by decide), setCursor_S, gen_S, seekBlockContext_MODE, seekBlockContext_S]
  exact ⟨by omega, by omega, rfl⟩

/-- Settles O20: `exec_seekOffset_of_aligned` for every state, and `seekOffsetContext_last` for the last offset. -/
theorem seekOffsetToABlockIsSeekBlock : Obligations.SeekOffsetToABlockIsSeekBlock :=
  ⟨fun nonce _ _ s _ h => exec_seekOffset_of_aligned nonce s h, fun nonce s hk =>
    ⟨_, exec_seek rfl hk, seekOffsetContext_last nonce s.ctx⟩⟩

/-! ### SEEK_NONCE and SEEK_BLOCK -/

/-- Four of NONCE16's bytes that are four consecutive bytes of a u64 make up that half of it (R52, R76). -/
theorem nonceWord_toNat_of_bytes {v : Vector Byte 16} {x : U64} (i j : Nat) (hi : i < 4)
    (h : ∀ k (_ : k < 4), v[4 * i + k].toNat = x.toNat / 2 ^ (8 * (4 * j + k)) % 2 ^ 8) :
    (nonceWord v i).toNat = x.toNat / 2 ^ (32 * j) % 2 ^ 32 := by
  have hbyte (k : Nat) (hk : k < 4) : v[4 * i + k].toNat = x.toNat / 2 ^ (32 * j) / 2 ^ (8 * k) % 2 ^ 8 := by
    rw [h k hk, Nat.div_div_eq_div_mul, ← pow_add]
    congr 3
    omega
  have h0 := hbyte 0 (by decide)
  have h1 := hbyte 1 (by decide)
  have h2 := hbyte 2 (by decide)
  have h3 := hbyte 3 (by decide)
  rw [nonceWord_toNat v i hi]
  simp only [Nat.add_zero] at h0
  omega

theorem writeNonce16_eq_writeBlockNonce (S : Words) {nonce blk : U64} {v : Vector Byte 16}
    (h : ∀ k (_ : k < 8), v[k].toNat = blk.toNat / 2 ^ (8 * k) % 2 ^ 8 ∧ v[8 + k].toNat = nonce.toNat / 2 ^ (8 * k) % 2 ^ 8) :
    writeNonce16 S v = writeBlockNonce S nonce blk := by
  have hblk := blk.isLt
  have hnonce := nonce.isLt
  have w0 : nonceWord v 0 = lowWord blk := BitVec.eq_of_toNat_eq (by
    rw [nonceWord_toNat_of_bytes 0 0 (by decide) fun k hk => by simpa using (h k (by omega)).1, lowWord_toNat]; omega)
  have w1 : nonceWord v 1 = highWord blk := BitVec.eq_of_toNat_eq (by
    rw [nonceWord_toNat_of_bytes 1 1 (by decide) fun k hk => (h (4 + k) (by omega)).1, highWord_toNat]; omega)
  have w2 : nonceWord v 2 = lowWord nonce := BitVec.eq_of_toNat_eq (by
    rw [nonceWord_toNat_of_bytes 2 0 (by decide) fun k hk => by simpa using (h k (by omega)).2, lowWord_toNat]; omega)
  have w3 : nonceWord v 3 = highWord nonce := BitVec.eq_of_toNat_eq (by
    rw [nonceWord_toNat_of_bytes 3 1 (by decide) fun k hk => by simpa [← Nat.add_assoc] using (h (4 + k) (by omega)).2, highWord_toNat]; omega)
  rw [writeNonce16, writeBlockNonce, w0, w1, w2, w3]

/-- Settles O21: both commands complete by `exec_seek`, with the same words by `writeNonce16_eq_writeBlockNonce`. -/
theorem seekNonceAndSeekBlockAgreeOnTheWords : Obligations.SeekNonceAndSeekBlockAgreeOnTheWords := by
  intro nonce blk v s hk hbytes
  refine ⟨_, _, exec_seek rfl hk, exec_seek rfl hk, ?_⟩
  simp only [complete_ctx, workOf, seekNonceContext, seekBlockContext, writeNonce16_eq_writeBlockNonce s.ctx.S hbytes]

/-! ### The position -/

theorem pos_initContext (key : List Byte) (c : Context) : (initContext key c).pos = 0 := pos_exhausted (initContext key c) rfl

theorem pos_seekBlockContext (nonce blk : U64) (c : Context) : (seekBlockContext nonce blk c).pos = 64 * blk.toNat :=
  (pos_exhausted (seekBlockContext nonce blk c) rfl).trans (congrArg (64 * ·) (ctr_writeBlockNonce c.S nonce blk))

/-- After SEEK_NONCE the 128-bit counter is the sixteen bytes, the first the lowest (R76). -/
theorem ctr_writeNonce16 (S : Words) (v : Vector Byte 16) :
    ctr (writeNonce16 S v) .nonce128 = ∑ k : Fin 16, 2 ^ (8 * k.val) * v[k].toNat := by
  simp only [ctr, writeNonce16, setCounterRegion_12, setCounterRegion_13, setCounterRegion_14, setCounterRegion_15,
    nonceWord_toNat v 0 (by decide), nonceWord_toNat v 1 (by decide), nonceWord_toNat v 2 (by decide), nonceWord_toNat v 3 (by decide)]
  simp only [Fin.sum_univ_succ, Fin.sum_univ_zero, Fin.getElem_fin, Fin.val_zero, Fin.val_succ, Nat.reduceAdd, Nat.reduceMul, Nat.zero_add]
  omega

theorem pos_seekNonceContext (v : Vector Byte 16) (c : Context) :
    (seekNonceContext v c).pos = 64 * (∑ k : Fin 16, 2 ^ (8 * k.val) * v[k].toNat) % 2 ^ 134 := by
  have hlt := ctr_lt_wrapOf (writeNonce16 c.S v) .nonce128
  have hpos : (seekNonceContext v c).pos = 64 * ctr (writeNonce16 c.S v) .nonce128 := pos_exhausted (seekNonceContext v c) rfl
  rw [hpos, ← ctr_writeNonce16 c.S v]
  simp only [wrapOf] at hlt
  omega

/-- Settles O41: the position is that of the context which each command's work leaves. -/
theorem positionAfterInitAndSeeks : Obligations.PositionAfterInitAndSeeks :=
  ⟨fun key s hk => ⟨_, exec_init s hk, pos_initContext key s.ctx⟩, fun nonce blk s hk => ⟨_, exec_seek rfl hk, pos_seekBlockContext nonce blk s.ctx⟩,
    fun nonce offset s hk => ⟨_, exec_seek rfl hk, pos_seekOffset nonce offset s.ctx⟩,
    fun v s hk => ⟨_, exec_seek rfl hk, pos_seekNonceContext v s.ctx⟩⟩

end Sys2Proof.Machine
end

section
/-! PROOFS. UPDATE and the keystream (43_keystream_update.md sections 2 and 3): what an UPDATE completes with, the law of UPDATE, chunks, discarded
bytes, and the same message transformed twice or in several parts. -/

namespace Sys2Proof.Machine

/-! ### What an UPDATE completes with -/

/-- Bytes that fit into the rest of the buffered block are all that `updateBytes_buffered` covers: no block is generated (R166). -/
theorem genCount_zero {cur : Cursor} {n : Nat} (h : genCount cur n = 0) : cur.val + n ≤ 64 := by
  have hcur := cur.isLt
  unfold genCount at h
  split_ifs at h <;> omega

theorem updateBytes_no_block {c : Context} {l : List Byte} (h : genCount c.CUR l.length = 0) :
    (updateBytes c l).1.KS = c.KS ∧ (updateBytes c l).1.S = c.S := by
  rw [updateBytes_buffered c l (genCount_zero h), setCursor_KS, setCursor_S]
  exact ⟨rfl, rfl⟩

/-- The blocks that `updateBytes_generations` counts are as many as R165 says. -/
theorem updateBytes_genCount (c : Context) {l : List Byte} (h0 : l ≠ []) :
    (updateBytes c l).1.CUR.val + 64 * genCount c.CUR l.length = c.CUR.val + l.length ∧
    ctr (updateBytes c l).1.S c.MODE = (ctr c.S c.MODE + genCount c.CUR l.length) % wrapOf c.MODE := by
  obtain ⟨g, hcur, hctr⟩ := updateBytes_generations c l
  have hmax := (updateBytes c l).1.CUR.isLt
  rw [genCount_eq (List.length_pos_iff.mpr h0) hcur (updateBytes_cursor_pos c l (.inr h0)) (by omega)]
  exact ⟨hcur, hctr⟩

theorem ne_nil_of_len {len : U64} {input : List Byte} (h0 : len ≠ 0) (hl : input.length = len.toNat) : input ≠ [] :=
  List.ne_nil_of_length_pos (hl ▸ len_pos h0)

/-- Settles O31: the completed UPDATE of `exec_update`, with the laws of `updateBytes` about each field. -/
theorem updateCompletesAndCountsItsBlocks : Obligations.UpdateCompletesAndCountsItsBlocks := by
  intro len cap input s hk h0 hl hc
  have hne := ne_nil_of_len h0 hl
  have hexec := exec_update hk h0 hl hc
  obtain ⟨hcur, hctr⟩ := updateBytes_genCount s.ctx hne
  have hmax := (updateBytes s.ctx input).1.CUR.isLt
  rw [← hl]
  exact ⟨_, hexec, rfl, ⟨_, rfl, updateBytes_length s.ctx input⟩, hctr, hcur, updateBytes_cursor_pos s.ctx input (.inr hne), by
    rw [complete_ctx]; omega, updateBytes_low s.ctx input, updateBytes_MODE s.ctx input, (updateBytes_KEYED s.ctx input).trans hk,
    updateBytes_nonce s.ctx input, updateBytes_no_block, (exec_port hexec).1⟩

/-- Settles O33: `updateBytes_buffered` is the whole of it, byte by byte by `xorBytes_keystream`. -/
theorem updateInsideTheBufferedBlock : Obligations.UpdateInsideTheBufferedBlock := by
  intro len input s hk h0 hl hfits
  rw [← hl] at hfits ⊢
  refine ⟨cursorOf (s.ctx.CUR.val + input.length), xorBytes input (s.ctx.KS.toList.drop s.ctx.CUR.val), ?_, cursorOf_val _ hfits, ?_,
    fun k hkn => xorBytes_keystream input s.ctx.KS s.ctx.CUR.val hkn (by omega)⟩
  · rw [exec_update hk h0 hl rfl, updateBytes_buffered s.ctx input hfits]
    rfl
  · rw [xorBytes_length, List.length_drop, Vector.length_toList]
    omega

/-- Settles O34: `updateBytes_fresh` is the whole of it, byte by byte by `xorBytes_keystream`. -/
theorem updateOfOneFreshBlock : Obligations.UpdateOfOneFreshBlock := by
  intro len input s hk hcur h0 h64 hl
  have hpos := len_pos h0
  rw [← hl] at h64 hpos ⊢
  refine ⟨cursorOf input.length, xorBytes input (blockFn s.ctx.S).toList, ?_, cursorOf_val _ h64, ?_, fun k hkn => ?_⟩
  · rw [exec_update hk h0 hl rfl, updateBytes_fresh s.ctx input hcur hpos h64]
    rfl
  · rw [xorBytes_length, Vector.length_toList]
    omega
  · simpa only [Nat.zero_add, List.drop_zero] using xorBytes_keystream input (blockFn s.ctx.S) 0 hkn (by omega)

/-! ### The law of UPDATE -/

theorem updateBytes_get? {c : Context} {l : List Byte} (hb : c.BufferedBlock) {k : Nat} (hk : k < l.length) :
    (updateBytes c l).2[k]? = some (l.getD k 0 ^^^ c.keystreamByte k) := by
  rw [List.getElem?_eq_getElem (by rwa [updateBytes_length]), updateBytes_out c l hb k hk, List.getD_eq_getElem l 0 hk]

/-- Settles O35: the bytes are `updateBytes_get?`, which needs the buffered block of the invariant, and the position is `updateBytes_pos`. -/
theorem lawOfUpdate : Obligations.LawOfUpdate := by
  intro len cap input s hinv hk h0 hl hc
  rw [← hl]
  exact ⟨_, _, exec_update hk h0 hl hc, rfl, updateBytes_length s.ctx input, fun k hkn => updateBytes_get? (Inv_bufferedBlock hinv hk) hkn,
    updateBytes_pos s.ctx input (Nat.le_of_lt_succ s.ctx.CUR.isLt), updateBytes_low s.ctx input, updateBytes_MODE s.ctx input,
    updateBytes_nonce s.ctx input⟩

/-! ### The same bytes in other ways -/

/-- Settles O36: the chunks' UPDATEs and the one UPDATE are the same `updateBytes` of the whole message. -/
theorem chunksStreamLikeOneMessage : Obligations.ChunksStreamLikeOneMessage := by
  intro chunks s hk hl
  obtain ⟨u, st, hrun, hctx⟩ := runUpdates_eq chunks s hk hl
  refine ⟨u, _, _, hrun, exec_wholeUpdate_any hk hl, rfl, ?_⟩
  rw [hctx]
  exact ⟨rfl, rfl, rfl, rfl, fun _ => rfl⟩

/-- Settles O37: both blocks reach one context (`run_init_seek`), from which the same keystream goes on twice (`updateBytes_out_twice`). -/
theorem updateTwiceGivesTheMessageBack : Obligations.UpdateTwiceGivesTheMessageBack := by
  intro key message seek s t hkey hseek hm
  obtain ⟨u, hu, hcu⟩ := run_init_seek s hkey hseek
  obtain ⟨v, hv, hcv⟩ := run_init_seek t hkey hseek
  have hkeyed := freshContext_KEYED key hseek
  have hlen : (updateBytes u.ctx message).2.length < 2 ^ 64 := by rwa [updateBytes_length]
  refine ⟨u, v, _, _, hu, hv, exec_wholeUpdate_any (hcu ▸ hkeyed) hm, exec_wholeUpdate_any (hcv ▸ hkeyed) hlen, ?_⟩
  rw [complete_out, complete_out, hcu, hcv]
  exact (updateBytes_out_twice _ message).1

/-- Settles O38: the discarded bytes leave the context of the SEEK_OFFSET (`seekOffset_discard`), so the same UPDATE goes on from there. -/
theorem offsetSeekIsBlockSeekAndDiscard : Obligations.OffsetSeekIsBlockSeekAndDiscard := by
  intro nonce blk offset discarded message s hk hd ho hm
  obtain ⟨a, ha, hca⟩ : ∃ a, exec (.seekOffset nonce offset) s = .next a ∧
      a.ctx = { seekOffsetContext nonce offset s.ctx with STATUS := .ok } := ⟨_, exec_seek rfl hk, rfl⟩
  obtain ⟨c, hc, hcc⟩ : ∃ c, exec (.seekBlock nonce blk) s = .next c ∧
      c.ctx = { seekBlockContext nonce blk s.ctx with STATUS := .ok } := ⟨_, exec_seek rfl hk, rfl⟩
  have hka : a.ctx.KEYED = true := by rw [hca]; exact (seekOffsetContext_KEYED nonce offset s.ctx).trans hk
  have hkc : c.ctx.KEYED = true := by rw [hcc]; exact hk
  obtain ⟨d, hdisc, hcd⟩ : ∃ d, exec (wholeUpdate discarded) c = .next d ∧ d.ctx = a.ctx := by
    refine ⟨_, exec_wholeUpdate_any hkc (by omega), ?_⟩
    rw [complete_ctx, hcc, updateBytes_setStatus, seekOffset_discard nonce blk offset discarded s.ctx hd ho, hca]
  refine ⟨a, _, c, d, _, ha, exec_wholeUpdate_any hka hm, hc, hdisc, exec_wholeUpdate_any (hcd ▸ hka) hm, ?_⟩
  rw [complete_out, complete_out, complete_ctx, complete_ctx, hcd]
  exact ⟨rfl, rfl, rfl⟩

/-- Settles O39: byte by byte, the context goes on by the number of bytes and each output byte takes its own input byte. -/
theorem outputByteDependsOnItsInputByteOnly : Obligations.OutputByteDependsOnItsInputByteOnly := by
  intro a b k s hk hlen ha _ hbyte
  refine ⟨_, _, exec_wholeUpdate_any hk ha, exec_wholeUpdate_any hk (hlen ▸ ha), updateBytes_get_congr s.ctx a b hlen k hbyte, ?_⟩
  rw [complete_ctx, complete_ctx, updateBytes_ctx_congr s.ctx a b hlen]

/-! ### One keystream -/

/-- After a message the keystream goes on where the message ended. -/
theorem updateBytes_keystreamByte (c : Context) (l : List Byte) (k : Nat) :
    (updateBytes c l).1.keystreamByte k = c.keystreamByte (l.length + k) := by
  induction l generalizing c with
  | nil => rw [updateBytes, List.length_nil, Nat.zero_add]
  | cons b bs ih =>
    rw [updateBytes, ih, updateByte_keystreamByte, List.length_cons]
    congr 1
    omega

/-- Two contexts with the same keystream from their positions on make the same of every message. -/
theorem updateBytes_out_congr {c d : Context} (hc : c.BufferedBlock) (hd : d.BufferedBlock)
    (h : ∀ k, c.keystreamByte k = d.keystreamByte k) (l : List Byte) : (updateBytes c l).2 = (updateBytes d l).2 := by
  refine List.ext_getElem (by rw [updateBytes_length, updateBytes_length]) fun k hk _ => ?_
  rw [updateBytes_length] at hk
  rw [updateBytes_out c l hc k hk, updateBytes_out d l hd k hk, h]

/-- Sought where the messages before it end, a block makes of a message what one that was given them makes of it. -/
theorem updateBytes_freshContext_later (key before message : List Byte) (nonce from1 from2 : U64)
    (h : from2.toNat = from1.toNat + before.length) :
    (updateBytes (updateBytes (freshContext key (.seekOffset nonce from1)) before).1 message).2 =
      (updateBytes (freshContext key (.seekOffset nonce from2)) message).2 := by
  refine updateBytes_out_congr (updateBytes_bufferedBlock _ before (freshContext_buffered key rfl)) (freshContext_buffered key rfl)
    (fun k => ?_) message
  rw [updateBytes_keystreamByte, freshContext_keystream, freshContext_keystream, h, Nat.add_assoc]

/-- Settles O40: of the one long message, the last part comes out as `updateBytes_freshContext_later` says, after the two parts before it. -/
theorem instancesAtDisjointOffsetsMakeOneStream : Obligations.InstancesAtDisjointOffsetsMakeOneStream := by
  intro key first gap second nonce from1 from2 s t w hkey hfrom hlen
  obtain ⟨a, ha, hca⟩ := run_init_seek (seek := .seekOffset nonce from1) s hkey rfl
  obtain ⟨b, hb, hcb⟩ := run_init_seek (seek := .seekOffset nonce from2) t hkey rfl
  obtain ⟨c, hc, hcc⟩ := run_init_seek (seek := .seekOffset nonce from1) w hkey rfl
  have hkeyed (o : U64) : (freshContext key (.seekOffset nonce o)).KEYED = true := freshContext_KEYED key rfl
  have hlater := updateBytes_freshContext_later key (first ++ gap) second nonce from1 from2
    (by rw [List.length_append, hfrom, Nat.add_assoc])
  refine ⟨a, b, c, _, _, _, (updateBytes (updateBytes a.ctx first).1 gap).2, ha,
    exec_wholeUpdate_any (hca ▸ hkeyed from1) (by omega), hb, exec_wholeUpdate_any (hcb ▸ hkeyed from2) (by omega), hc,
    exec_wholeUpdate_any (hcc ▸ hkeyed from1) (by simp only [List.length_append]; omega), updateBytes_length _ gap, ?_⟩
  rw [complete_out, complete_out, complete_out, hca, hcb, hcc, updateBytes_append, hlater, updateBytes_append]

/-! ### The one-shot forms -/

section
variable {key input : List Byte} {seek : Instr} (form : List Byte → OneShot)
  (hbody : ∀ m, (form m).body = [.init key, seek, wholeUpdate m]) (hkey : key.length = 32) (hseek : Op.isSeek seek.op = true)
include hbody hkey hseek

/-- A one-shot form with a 32-byte key, run on its own output, gives its input back (R172). -/
theorem run_own_output (s t : State) (hm : input.length < 2 ^ 64) :
    ∃ r q, (form input).run s = .next r ∧ (form r.out).run t = .next q ∧ q.out = input := by
  obtain ⟨r, hr, -, -, hout⟩ := run_seek (hbody input) s hkey hseek hm
  have hlen : r.out.length < 2 ^ 64 := by rwa [hout, updateBytes_length]
  obtain ⟨q, hq, -, -, hback⟩ := run_seek (hbody r.out) t hkey hseek hlen
  refine ⟨r, q, hr, hq, ?_⟩
  rw [hback, hout]
  exact (updateBytes_out_twice _ input).1

end

/-- Settles O56: both forms are an INIT, a seek and an UPDATE, as `run_own_output` asks. -/
theorem oneShotFormsInvertThemselves : Obligations.OneShotFormsInvertThemselves := fun key _ n p s t hkey hm =>
  ⟨run_own_output (.cryptBlock key n p) (fun _ => rfl) hkey rfl s t hm, run_own_output (.cryptOffset key n p) (fun _ => rfl) hkey rfl s t hm⟩

end Sys2Proof.Machine
end

section
/-! PROOFS. What each command may write and answer (10_state.md sections 1 and 2, 20_memory.md section 3, 60_exceptions.md sections 2 and 4): the codes
it can raise, the fields it writes, what it does when given twice, and what its response shows. -/

namespace Sys2Proof.Machine

/-! ### Codes -/

/-- Every rejection that a command's checks can come to (R201, R202). -/
theorem verdict_reject_cases {i : Instr} {keyed : Bool} {code : Status} (h : verdictOf keyed i = .reject code) :
    (code = .notKeyed ∧ Op.needsKey i.op = true ∧ keyed = false) ∨
    (code = .invalidArgument ∧ (i.op = .init ∨ (i.op = .update ∧ keyed = true))) := by
  cases i with
  | init key =>
    simp only [verdictOf, initCheck] at h
    split_ifs at h
    cases h
    exact .inr ⟨rfl, .inl rfl⟩
  | seekNonce | seekBlock | seekOffset =>
    cases keyed with
    | true => cases h
    | false => cases h; exact .inl ⟨rfl, rfl, rfl⟩
  | update len input cap =>
    cases keyed with
    | true =>
      simp only [verdictOf, updateCheck, Bool.true_eq_false, if_false] at h
      split_ifs at h
      cases h
      exact .inr ⟨rfl, .inr ⟨rfl, rfl⟩⟩
    | false => cases h; exact .inl ⟨rfl, rfl, rfl⟩
  | wipe => cases h

/-- A command ends with OK, or with a rejection of its checks. -/
theorem exec_STATUS_cases {i : Instr} {s u : State} (h : exec i s = .next u) :
    u.ctx.STATUS = .ok ∨ verdictOf s.ctx.KEYED i = .reject u.ctx.STATUS := by
  obtain ⟨-, he⟩ | ⟨-, he⟩ | ⟨code, hv, he⟩ := exec_cases i s <;> cases h.symm.trans he
  · exact .inl rfl
  · exact .inl rfl
  · exact .inr hv

/-- Settles O48: a code that is not OK is one of `verdict_reject_cases`, and WIPE has no check. -/
theorem eachCommandRaisesOnlyItsCodes : Obligations.EachCommandRaisesOnlyItsCodes := by
  intro i s u h
  obtain hok | hrej := exec_STATUS_cases h
  · rw [hok]
    exact ⟨nofun, nofun, nofun, fun _ => rfl⟩
  · obtain ⟨hcode, hneeds, hkey⟩ | ⟨hcode, hop⟩ := verdict_reject_cases hrej <;> rw [hcode]
    · exact ⟨nofun, fun _ => ⟨hneeds, hkey⟩, nofun, fun hw => nomatch hw ▸ hneeds⟩
    · refine ⟨nofun, nofun, fun _ => hop, fun hw => ?_⟩
      obtain hop | ⟨hop, -⟩ := hop <;> cases hw.symm.trans hop

/-! ### Fields -/

/-- MODE after a command that did its work (R29). -/
def modeAfter (m : Mode) : Op → Mode
  | .init       => .block
  | .seekNonce  => .nonce128
  | .seekBlock  => .block
  | .seekOffset => .block
  | .update     => m
  | .wipe       => .block

/-- KEYED after a command that did its work (R30). -/
def keyedAfter (keyed : Bool) : Op → Bool
  | .init       => true
  | .seekNonce  => keyed
  | .seekBlock  => keyed
  | .seekOffset => keyed
  | .update     => keyed
  | .wipe       => false

theorem workOf_MODE (c : Context) (i : Instr) : (workOf c i).1.MODE = modeAfter c.MODE i.op := by
  cases i with
  | init | seekNonce | seekBlock | wipe => rfl
  | seekOffset n o => exact seekOffset_MODE n o c
  | update len input cap => exact updateBytes_MODE c input

theorem workOf_KEYED (c : Context) (i : Instr) : (workOf c i).1.KEYED = keyedAfter c.KEYED i.op := by
  cases i with
  | init | seekNonce | seekBlock | wipe => rfl
  | seekOffset n o => exact seekOffsetContext_KEYED n o c
  | update len input cap => exact updateBytes_KEYED c input

/-- Only INIT and WIPE write the constants and the key (R23, R24). -/
theorem workOf_low (c : Context) {i : Instr} (hi : i.op ≠ .init) (hw : i.op ≠ .wipe) (j : Nat) (hj : j < 12) :
    (workOf c i).1.S[j] = c.S[j] := by
  cases i with
  | init => exact absurd rfl hi
  | wipe => exact absurd rfl hw
  | seekNonce | seekBlock | seekOffset => exact seek_work_low rfl c j hj
  | update len input cap => exact updateBytes_low c input j hj

theorem keyedAfter_kept (keyed : Bool) {op : Op} (hi : op ≠ .init) (hw : op ≠ .wipe) : keyedAfter keyed op = keyed := by
  cases op with
  | init => exact absurd rfl hi
  | wipe => exact absurd rfl hw
  | seekNonce | seekBlock | seekOffset | update => rfl

theorem exec_keeps_key {i : Instr} {s u : State} (h : exec i s = .next u) (hi : i.op ≠ .init) (hw : i.op ≠ .wipe) :
    (∀ j (_ : j < 12), u.ctx.S[j] = s.ctx.S[j]) ∧ u.ctx.KEYED = s.ctx.KEYED := by
  obtain ⟨-, he⟩ | ⟨-, he⟩ | ⟨code, -, he⟩ := exec_cases i s <;> cases h.symm.trans he
  · exact ⟨workOf_low s.ctx hi hw, (workOf_KEYED s.ctx i).trans (keyedAfter_kept _ hi hw)⟩
  · exact ⟨fun _ _ => rfl, rfl⟩
  · exact ⟨fun _ _ => rfl, rfl⟩

/-- Settles O51: an illegal word writes STATUS alone, and for the other commands it is `exec_keeps_key`. -/
theorem onlyInitAndWipeWriteTheKey : Obligations.OnlyInitAndWipeWriteTheKey := by
  intro t s u hi hw h
  obtain ⟨op, hop, hp⟩ | ⟨-, hp⟩ := perform_cases t s
  · rw [hop, ne_eq, Option.some_inj] at hi hw
    exact exec_keeps_key (hp.symm.trans h) (by rwa [selectOperands_op]) (by rwa [selectOperands_op])
  · cases h.symm.trans hp
    exact ⟨fun _ _ => rfl, rfl⟩

/-- What a command that completes leaves in MODE and KEYED, the key being there if it needs one (R29, R30). -/
theorem exec_ok_MODE_KEYED {i : Instr} {s u : State} (h : exec i s = .next u) (hok : u.ctx.STATUS = .ok) :
    u.ctx.MODE = modeAfter s.ctx.MODE i.op ∧ u.ctx.KEYED = keyedAfter true i.op := by
  obtain ⟨hv, he⟩ | ⟨hv, he⟩ | ⟨code, hv, he⟩ := exec_cases i s <;> cases h.symm.trans he
  · refine ⟨workOf_MODE s.ctx i, (workOf_KEYED s.ctx i).trans ?_⟩
    cases i with
    | init | wipe => rfl
    | seekNonce | seekBlock | seekOffset | update => exact proceed_keyed hv rfl
  · obtain ⟨hop, hk⟩ := noOp_update hv
    rw [hop]
    exact ⟨rfl, hk⟩
  · exact absurd hok (reject_not_ok hv)

/-- Settles O52: `exec_ok_MODE_KEYED`, read for each command. -/
theorem writersOfModeAndKeyed : Obligations.WritersOfModeAndKeyed := by
  intro i s u h hok
  have hfields (op : Op) (hop : i.op = op) : u.ctx.MODE = modeAfter s.ctx.MODE op ∧ u.ctx.KEYED = keyedAfter true op :=
    hop ▸ exec_ok_MODE_KEYED h hok
  exact ⟨hfields .init, fun hop => hop.elim (hfields .seekBlock) (hfields .seekOffset), hfields .seekNonce, hfields .wipe,
    hfields .update⟩

/-! ### A command given twice -/

theorem context_ext {c d : Context} (hS : c.S = d.S) (hKS : c.KS = d.KS) (hCUR : c.CUR = d.CUR) (hMODE : c.MODE = d.MODE)
    (hKEYED : c.KEYED = d.KEYED) (hSTATUS : c.STATUS = d.STATUS) : c = d := by
  cases c; cases d; cases hS; cases hKS; cases hCUR; cases hMODE; cases hKEYED; cases hSTATUS; rfl

/-- A seek on a context that the same seek left leaves KS: it generates the same block again, or none. -/
theorem seek_work_KS_again {i : Instr} (h : Op.isSeek i.op = true) {c d : Context} (hd : d.KS = (workOf c i).1.KS)
    (hS : (workOf d i).1.S = (workOf c i).1.S) : (workOf d i).1.KS = (workOf c i).1.KS := by
  cases i with
  | seekNonce | seekBlock => exact hd
  | seekOffset n o =>
    simp only [workOf] at hd hS ⊢
    rw [seekOffsetContext_KS n o d, hS, hd]
    split_ifs with h0
    · rfl
    · rw [seekOffsetContext_KS n o c, if_neg h0]
  | init | update | wipe => cases h

/-- The work of every command but UPDATE, done again, changes nothing (R58). -/
theorem work_again {i : Instr} (hi : i.op ≠ .update) (c : Context) :
    { (workOf { (workOf c i).1 with STATUS := .ok } i).1 with STATUS := .ok } = { (workOf c i).1 with STATUS := .ok } := by
  have hseek (h : Op.isSeek i.op = true) :
      { (workOf { (workOf c i).1 with STATUS := .ok } i).1 with STATUS := .ok } = { (workOf c i).1 with STATUS := .ok } := by
    obtain ⟨hS, hMODE, hCUR, -⟩ := seek_congr h { (workOf c i).1 with STATUS := .ok } c (seek_work_low h c)
    exact context_ext hS (seek_work_KS_again h rfl hS) hCUR hMODE (seek_work_keyed h _) rfl
  cases i with
  | init | wipe => rfl
  | seekNonce | seekBlock | seekOffset => exact hseek rfl
  | update => exact absurd rfl hi

/-- A command that did its work and is no UPDATE passes its checks again. -/
theorem verdict_again {i : Instr} {c : Context} (hi : i.op ≠ .update) (h : verdictOf c.KEYED i = .proceed) :
    verdictOf (workOf c i).1.KEYED i = .proceed := by
  cases i with
  | init | wipe => exact h
  | seekNonce | seekBlock | seekOffset => exact (congrArg seekCheck (seek_work_keyed rfl c)).trans h
  | update => exact absurd rfl hi

/-- Settles O53: a command that proceeds does so again and changes nothing (`work_again`); one that is rejected leaves KEYED, and is
rejected again. -/
theorem commandsButUpdateAreIdempotent : Obligations.CommandsButUpdateAreIdempotent := by
  intro i s u hi h
  obtain ⟨hv, he⟩ | ⟨hv, -⟩ | ⟨code, hv, he⟩ := exec_cases i s
  · cases h.symm.trans he
    refine ⟨_, exec_of_proceed (verdict_again hi hv), work_again hi s.ctx, ?_⟩
    rw [complete_response, complete_response, workOf_out_of_ne_update _ hi, workOf_out_of_ne_update _ hi]
  · exact absurd (noOp_update hv).1 hi
  · cases h.symm.trans he
    exact ⟨_, exec_of_reject (s := s.reject code) hv, rfl, rfl⟩

/-! ### What responses show -/

/-- KEYED after a command depends on KEYED before it and on nothing else of the context. -/
theorem exec_KEYED {i : Instr} {s u : State} (h : exec i s = .next u) :
    u.ctx.KEYED = if verdictOf s.ctx.KEYED i = .proceed then keyedAfter s.ctx.KEYED i.op else s.ctx.KEYED := by
  obtain ⟨hv, he⟩ | ⟨hv, he⟩ | ⟨code, hv, he⟩ := exec_cases i s <;> cases h.symm.trans he <;> rw [hv]
  · exact workOf_KEYED s.ctx i
  · rfl
  · rfl

section
variable {t : Transaction} {s v u w : State} (hk : s.ctx.KEYED = v.ctx.KEYED) (hu : perform t s = .next u) (hw : perform t v = .next w)
include hk hu hw

theorem perform_KEYED_congr : u.ctx.KEYED = w.ctx.KEYED := by
  obtain ⟨op, hop, hp⟩ | ⟨hop, hp⟩ := perform_cases t s
  · have hpv : perform t v = exec (selectOperands t.fields op) v := perform_of_decode v (decode_of_op hop)
    rw [exec_KEYED (hp.symm.trans hu), exec_KEYED (hpv.symm.trans hw), hk]
  · cases hu.symm.trans hp
    cases hw.symm.trans (perform_of_none v hop)
    exact hk

theorem perform_STATUS_congr : u.ctx.STATUS = w.ctx.STATUS := by
  rw [STATUS_of_perform hu, STATUS_of_perform hw, hk]

/-- An UPDATE that completes puts out LEN bytes on either block, and everything else puts out none. -/
theorem perform_out_length_congr : u.out.length = w.out.length := by
  have hst := perform_STATUS_congr hk hu hw
  by_cases hc : decodeOp t.CMD = some .update ∧ u.ctx.STATUS = .ok
  · obtain ⟨hop, hok⟩ := hc
    rw [perform_update_out_length hu hop hok, perform_update_out_length hw hop (hst ▸ hok)]
  · have hnone : u.out = [] := by_contra fun ho => hc (perform_out_ne_nil hu ho)
    have hnone' : w.out = [] := by_contra fun ho => hc (hst ▸ perform_out_ne_nil hw ho)
    rw [hnone, hnone']

theorem perform_response_congr (hop : decodeOp t.CMD ≠ some .update) : u.response = w.response := by
  obtain ⟨-, out, hr⟩ := perform_port hu
  obtain ⟨-, out', hr'⟩ := perform_port hw
  have hnone : out = [] := by_contra fun ho => hop (perform_out_ne_nil hu (out_of_response hr ▸ ho)).1
  have hnone' : out' = [] := by_contra fun ho => hop (perform_out_ne_nil hw (out_of_response hr' ▸ ho)).1
  rw [hr, hr', hnone, hnone', perform_STATUS_congr hk hu hw]

end

/-- Settles O54: two blocks that agree in KEYED agree in every part of the answer but an UPDATE's bytes. -/
theorem responsesDoNotShowTheContext : Obligations.ResponsesDoNotShowTheContext := by
  intro t s v hk
  obtain ⟨u, hu⟩ := perform_goes_on t s
  obtain ⟨w, hw⟩ := perform_goes_on t v
  exact ⟨u, w, hu, hw, perform_STATUS_congr hk hu hw, perform_out_length_congr hk hu hw, perform_response_congr hk hu hw,
    perform_KEYED_congr hk hu hw⟩

/-- Settles O43: what WIPE leaves and answers names nothing of the state before (`exec_wipe`). -/
theorem wipeLeavesNoTrace : Obligations.WipeLeavesNoTrace := fun s t => ⟨_, _, exec_wipe s, exec_wipe t, rfl, rfl⟩

end Sys2Proof.Machine
end

section
/-! PROOFS. The assembler (30_encoding.md section 5, R82 to R84): a line of a mnemonic and written operands, UPDATE's defaults, and raw words. -/

namespace Sys2Proof.Machine

/-! ### A mnemonic and its command -/

/-- The mnemonic of each command, in lower case (R83). -/
def mnemonicOf : Op → List Char
  | .init       => "init".toList
  | .seekNonce  => "seek_nonce".toList
  | .seekBlock  => "seek_block".toList
  | .seekOffset => "seek_offset".toList
  | .update     => "update".toList
  | .wipe       => "wipe".toList

/-- A character that may stand in a name: neither a separator nor a blank. -/
def isPlain (c : Char) : Bool := !isSeparator c && !isBlank c

theorem clean_of_plain {l : List Char} (h : l.all isPlain = true) : ∀ c ∈ l, isSeparator c = false ∧ isBlank c = false := by
  intro c hc
  simpa [isPlain] using List.all_eq_true.mp h c hc

theorem mnemonicOf_clean (op : Op) : ∀ c ∈ mnemonicOf op, isSeparator c = false ∧ isBlank c = false :=
  clean_of_plain (by cases op <;> rfl)

theorem mnemonicOf_ne_nil (op : Op) : mnemonicOf op ≠ [] := by
  cases op <;> exact List.cons_ne_nil _ _

theorem assembleMnemonic_op (op : Op) (rest : List Char) :
    assembleMnemonic (mnemonicOf op) rest = assembleCommand (parseOperands rest) (assembleOp op) := by
  cases op <;> rfl

/-- A command's line comes to the encoding of what its operands come to. -/
theorem assembleCommand_eq (ops : Except AsmError Operands) (op : Op) :
    assembleCommand ops (assembleOp op) = (ops.bind (assembleOp op)).map fun i => .command (encode i) := by
  cases ops with
  | error e => rfl
  | ok l =>
    simp only [assembleCommand, bind, Except.bind]
    cases assembleOp op l <;> rfl

/-! ### Written operands -/

/-- An operand as it stands on a line: its name, the text of its value, and the value that the text is read as. -/
structure Written where
  name  : String
  text  : List Char
  value : AsmValue

/-- The text reads as the value, and the name is one piece in lower case. -/
structure Written.Reads (w : Written) : Prop where
  value : parseValue w.text = .ok w.value
  clean : ∀ c ∈ w.name.toList, isSeparator c = false ∧ isBlank c = false
  lower : lower w.name.toList = w.name.toList

/-- The operands of a line, a blank before each and a comma between two (R82). -/
def operandText : List Written → List Char
  | []           => []
  | [w]          => ' ' :: w.name.toList ++ '=' :: w.text
  | w :: v :: ws => ' ' :: w.name.toList ++ '=' :: (w.text ++ ',' :: operandText (v :: ws))

def Written.pair (w : Written) : List Char × AsmValue := (w.name.toList, w.value)

section
variable {w : Written} (h : w.Reads)
include h

theorem lower_trim_name : Machine.lower (trim (' ' :: w.name.toList)) = w.name.toList := by
  have htrim : trim (' ' :: w.name.toList) = trim w.name.toList := rfl
  rw [htrim, trim_of_trimmed (trimmed_of_no_blank fun c hc => (h.clean c hc).2), h.lower]

/-- A name, with the blank before it, holds none of the marks that part a line. -/
theorem name_holds_no_mark : '=' ∉ ' ' :: w.name.toList ∧ ',' ∉ ' ' :: w.name.toList ∧ ';' ∉ ' ' :: w.name.toList := by
  have hmark (c : Char) (hc : isSeparator c = true) (hb : c ≠ ' ') : c ∉ ' ' :: w.name.toList :=
    List.not_mem_cons_of_ne_of_not_mem hb (not_mem_of_clean (fun c hc => (h.clean c hc).1) hc)
  exact ⟨hmark '=' rfl (by decide), hmark ',' rfl (by decide), hmark ';' rfl (by decide)⟩

end

/-- Written operands are read one by one. -/
theorem readOperands_operandText {w : Written} {ws : List Written} (h : ∀ v ∈ w :: ws, v.Reads) :
    (splitAtChar ',' (operandText (w :: ws))).mapM parseOperand = .ok ((w :: ws).map Written.pair) := by
  induction ws generalizing w with
  | nil =>
    have hw := h w List.mem_cons_self
    obtain ⟨hequals, hcomma, -⟩ := name_holds_no_mark hw
    rw [operandText, readOperands_last ⟨hequals, hcomma⟩ hw.value, lower_trim_name hw]
    rfl
  | cons v vs ih =>
    have hw := h w List.mem_cons_self
    obtain ⟨hequals, hcomma, -⟩ := name_holds_no_mark hw
    rw [operandText, readOperands_cons ⟨hequals, hcomma⟩ hw.value,
      ih fun x hx => h x (List.mem_cons_of_mem w hx), lower_trim_name hw]
    rfl

/-- A text of operands ends in a value, with no comment before it. -/
theorem operandText_last {w : Written} {ws : List Written} (h : ∀ v ∈ w :: ws, v.Reads) : ∃ mid last v,
    operandText (w :: ws) = ' ' :: (mid ++ last) ∧ ';' ∉ mid ∧ parseValue last = .ok v := by
  induction ws generalizing w with
  | nil =>
    have hw := h w List.mem_cons_self
    have hname := List.not_mem_of_not_mem_cons (name_holds_no_mark hw).2.2
    exact ⟨w.name.toList ++ ['='], w.text, w.value, by simp [operandText], by simp [hname], hw.value⟩
  | cons v vs ih =>
    have hw := h w List.mem_cons_self
    have hname := List.not_mem_of_not_mem_cons (name_holds_no_mark hw).2.2
    obtain ⟨mid, last, x, htext, hmid, hx⟩ := ih fun x hx => h x (List.mem_cons_of_mem w hx)
    refine ⟨w.name.toList ++ '=' :: w.text ++ ',' :: ' ' :: mid, last, x, by simp [operandText, htext], ?_, hx⟩
    simp [hname, hmid, no_comment hw.value]

theorem operandText_has_operand (w : Written) (ws : List Written) : '=' ∈ operandText (w :: ws) := by
  cases ws <;> simp [operandText]

/-- A line of a command, its mnemonic in any case, with written operands (R82, R83). -/
theorem assemble_operands {mn : List Char} {op : Op} (hn : lower mn = mnemonicOf op) {w : Written} {ws : List Written}
    (h : ∀ v ∈ w :: ws, v.Reads) :
    assemble (mn ++ operandText (w :: ws)) =
      (assembleOp op ((w :: ws).map Written.pair)).map fun i => .command (encode i) := by
  obtain ⟨mid, last, v, htext, hmid, hv⟩ := operandText_last h
  rw [htext, assemble_written hn (mnemonicOf_ne_nil op) (mnemonicOf_clean op) hmid hv, ← htext, assembleMnemonic_op, assembleCommand_eq,
    parseOperands_eq (operandText_has_operand w ws), readOperands_operandText h]
  rfl

theorem assemble_of_reads {mn line : List Char} {op : Op} {w : Written} {ws : List Written} {i : Instr} (hn : lower mn = mnemonicOf op)
    (h : ∀ v ∈ w :: ws, v.Reads) (hline : line = mn ++ operandText (w :: ws))
    (hi : assembleOp op ((w :: ws).map Written.pair) = .ok i) : assemble line = .ok (.command (encode i)) := by
  rw [hline, assemble_operands hn h, hi]
  rfl

theorem reads_of_plain_name {name : String} {text : List Char} {value : AsmValue} (hplain : name.toList.all isPlain = true)
    (hlower : lower name.toList = name.toList) (h : parseValue text = .ok value) : (Written.mk name text value).Reads :=
  ⟨h, clean_of_plain hplain, hlower⟩

/-! ### The commands' own rules -/

/-- A nonce of another length is refused (R83). -/
theorem assembleSeekNonce_badLength {b : List Byte} (h : b.length ≠ 16) :
    assembleSeekNonce [("nonce".toList, .bytes b)] = .error .nonceLength := by
  rw [assembleSeekNonce, only_singleton, bytes?_singleton]
  exact congrArg (Except.map Instr.seekNonce) (dif_neg h)

/-- What UPDATE's operands come to, len and outcap being |in| where they are left out (R83). -/
theorem assembleUpdate_of_operands {ops : Operands} {b : List Byte} {len? cap? : Option U64} {len cap : U64}
    (honly : ops.only ["len", "in", "outcap"] = .ok ()) (hin : ops.bytes? "in" = .ok (some b)) (hlen? : ops.number? "len" = .ok len?)
    (hcap? : ops.number? "outcap" = .ok cap?) (hlen : orLengthOf b len? = .ok len) (hcap : orLengthOf b cap? = .ok cap) :
    assembleUpdate ops = .ok (.update len b cap) := by
  rw [assembleUpdate, honly, hin, hlen?, hcap?]
  simp only [required, bind, Except.bind, hlen, hcap]
  rfl

theorem orLengthOf_none {b : List Byte} {size : U64} (h : size.toNat = b.length) : orLengthOf b none = .ok size := by
  have hlt := size.isLt
  rw [orLengthOf, lengthOf, if_pos (by omega), ← h, BitVec.ofNat_toNat, BitVec.setWidth_eq]

section
variable (b : List Byte) (m n : U64)

theorem assembleUpdate_len_in_outcap :
    assembleUpdate [("len".toList, .number m), ("in".toList, .bytes b), ("outcap".toList, .number n)] = .ok (.update m b n) :=
  assembleUpdate_of_operands (len? := some m) (cap? := some n) rfl rfl rfl rfl rfl rfl

variable {b} {size : U64} (h : size.toNat = b.length)
include h

theorem assembleUpdate_in : assembleUpdate [("in".toList, .bytes b)] = .ok (.update size b size) :=
  assembleUpdate_of_operands (len? := none) (cap? := none) rfl rfl rfl rfl (orLengthOf_none h) (orLengthOf_none h)

theorem assembleUpdate_len_in : assembleUpdate [("len".toList, .number m), ("in".toList, .bytes b)] = .ok (.update m b size) :=
  assembleUpdate_of_operands (len? := some m) (cap? := none) rfl rfl rfl rfl rfl (orLengthOf_none h)

theorem assembleUpdate_in_outcap : assembleUpdate [("in".toList, .bytes b), ("outcap".toList, .number n)] = .ok (.update size b n) :=
  assembleUpdate_of_operands (len? := none) (cap? := some n) rfl rfl rfl rfl (orLengthOf_none h) rfl

end

/-- Settles O58: each line is a mnemonic with written operands (`assemble_of_reads`), which the command's own rule takes. -/
theorem assemblerDefaultsAndRefusals : Obligations.AssemblerDefaultsAndRefusals := by
  intro bytes nonce16 num1 num2 b v m n hbytes hnonce hnum1 hnum2
  have hkey := reads_of_plain_name (name := "key") rfl rfl hbytes
  have hin := reads_of_plain_name (name := "in") rfl rfl hbytes
  have hnonceBytes := reads_of_plain_name (name := "nonce") rfl rfl hbytes
  have hnonce16 := reads_of_plain_name (name := "nonce") rfl rfl hnonce
  have hnonce64 := reads_of_plain_name (name := "nonce") rfl rfl hnum1
  have hblock := reads_of_plain_name (name := "block") rfl rfl hnum2
  have hoffset := reads_of_plain_name (name := "offset") rfl rfl hnum2
  have hlen := reads_of_plain_name (name := "len") rfl rfl hnum1
  have hcap := reads_of_plain_name (name := "outcap") rfl rfl hnum2
  refine ⟨fun mn hmn => ?init, fun mn hmn => ⟨?seekNonce, fun h16 => ?badNonce⟩, fun mn hmn => ?seekBlock, fun mn hmn => ?seekOffset,
    fun mn hmn => ⟨?update, fun size hsize => ⟨?updateIn, ?updateLenIn, ?updateInCap⟩⟩, fun mn hmn => ?wipe⟩
  case init =>
    exact assemble_of_reads (op := .init) hmn (List.forall_mem_singleton.mpr hkey) (by simp [operandText])
      (assembleInit_key b)
  case seekNonce =>
    exact assemble_of_reads (op := .seekNonce) hmn (List.forall_mem_singleton.mpr hnonce16) (by simp [operandText])
      (assembleSeekNonce_nonce v)
  case badNonce =>
    have hline : mn ++ " nonce=".toList ++ bytes = mn ++ operandText [⟨"nonce", bytes, .bytes b⟩] := by simp [operandText]
    rw [hline, assemble_operands (op := .seekNonce) hmn (List.forall_mem_singleton.mpr hnonceBytes)]
    exact congrArg (Except.map fun i => AsmLine.command (encode i)) (assembleSeekNonce_badLength h16)
  case seekBlock =>
    exact assemble_of_reads (op := .seekBlock) hmn
      (List.forall_mem_cons.mpr ⟨hnonce64, List.forall_mem_singleton.mpr hblock⟩) (by simp [operandText]) (assembleSeekBlock_numbers m n)
  case seekOffset =>
    exact assemble_of_reads (op := .seekOffset) hmn
      (List.forall_mem_cons.mpr ⟨hnonce64, List.forall_mem_singleton.mpr hoffset⟩) (by simp [operandText]) (assembleSeekOffset_numbers m n)
  case update =>
    exact assemble_of_reads (op := .update) hmn
      (List.forall_mem_cons.mpr ⟨hlen, List.forall_mem_cons.mpr ⟨hin, List.forall_mem_singleton.mpr hcap⟩⟩) (by simp [operandText])
      (assembleUpdate_len_in_outcap b m n)
  case updateIn =>
    exact assemble_of_reads (op := .update) hmn (List.forall_mem_singleton.mpr hin) (by simp [operandText])
      (assembleUpdate_in hsize)
  case updateLenIn =>
    exact assemble_of_reads (op := .update) hmn
      (List.forall_mem_cons.mpr ⟨hlen, List.forall_mem_singleton.mpr hin⟩) (by simp [operandText])
      (assembleUpdate_len_in m hsize)
  case updateInCap =>
    exact assemble_of_reads (op := .update) hmn
      (List.forall_mem_cons.mpr ⟨hin, List.forall_mem_singleton.mpr hcap⟩) (by simp [operandText])
      (assembleUpdate_in_outcap n hsize)
  case wipe =>
    rw [assemble_mnemonic (clean_of_lower (l := mnemonicOf .wipe) hmn (mnemonicOf_clean .wipe)), hmn]
    exact assembleMnemonic_op .wipe []

/-! ### Raw words -/

/-- The word of a command, with anything behind it, comes to what the command's mnemonic comes to with the same behind it (R84). -/
theorem assemble_raw_command (op : Op) {digits mn rest : List Char} {n : Nat} (h8 : digits.length = 8)
    (hd : digitsValue hexDigit 16 0 digits = some n) (hw : BitVec.ofNat 32 n = commandWord op) (hmn : lower mn = mnemonicOf op)
    (hrest : Parted rest) : assemble (".word".toList ++ " 0x".toList ++ digits ++ rest) = assemble (mn ++ rest) := by
  have hmn0 : mn ≠ [] := by
    rintro rfl
    exact mnemonicOf_ne_nil op hmn.symm
  rw [assemble_raw rfl h8 hd hrest, hw, assemble_parted (clean_of_lower hmn (mnemonicOf_clean op)) hmn0 hrest, hmn, assembleMnemonic_op,
    assembleCommand_eq]
  cases parseOperands (lineEnd rest) with
  | error e => rfl
  | ok ops =>
    simp only [Except.bind, assembleRaw_command]
    cases assembleOp op ops <;> rfl

/-- Settles O59: the six words by `assemble_raw_command`; a raw line that assembles has its own word by `assembleRaw_CMD`, and an illegal
word with no operand fills no field. -/
theorem rawWordStandsForItsMnemonic : Obligations.RawWordStandsForItsMnemonic := by
  refine ⟨fun p hp rest hrest => ?words, fun digits rest n h8 hd hrest => ⟨fun l hl => ?word, fun hillegal => ?alone⟩⟩
  case words =>
    simp only [List.mem_cons, List.not_mem_nil, or_false] at hp
    obtain rfl | rfl | rfl | rfl | rfl | rfl := hp
    · exact assemble_raw_command .init (digits := "00000001".toList) rfl rfl rfl rfl hrest
    · exact assemble_raw_command .seekNonce (digits := "00000002".toList) rfl rfl rfl rfl hrest
    · exact assemble_raw_command .seekBlock (digits := "00000003".toList) rfl rfl rfl rfl hrest
    · exact assemble_raw_command .seekOffset (digits := "00000004".toList) rfl rfl rfl rfl hrest
    · exact assemble_raw_command .update (digits := "00000005".toList) rfl rfl rfl rfl hrest
    · exact assemble_raw_command .wipe (digits := "00000006".toList) rfl rfl rfl rfl hrest
  case word =>
    have hraw : ((parseOperands (lineEnd rest)).bind (assembleRaw (BitVec.ofNat 32 n))).map .command = .ok l :=
      (assemble_raw (mn := ".word".toList) rfl h8 hd hrest).symm.trans hl
    cases hops : parseOperands (lineEnd rest) with
    | error e => rw [hops] at hraw; cases hraw
    | ok ops =>
      rw [hops, Except.bind] at hraw
      cases ht : assembleRaw (BitVec.ofNat 32 n) ops with
      | error e => rw [ht] at hraw; cases hraw
      | ok t =>
        rw [ht] at hraw
        cases hraw
        exact ⟨t.fields, by rw [← assembleRaw_CMD ht]⟩
  case alone =>
    have hline : ".word 0x".toList ++ digits = ".word".toList ++ " 0x".toList ++ digits ++ [] := by simp
    rw [hline, assemble_raw (mn := ".word".toList) (r := []) rfl h8 hd rfl]
    exact congrArg (Except.map AsmLine.command) (assembleRaw_illegal (Option.eq_none_iff_forall_ne_some.mpr hillegal) [])

end Sys2Proof.Machine
end
